-- ==== Sys2Proof/Word.lean ====
section
/-! DEFINITION. The word types of B64CORE (spec 00_scope.md R9, R10; 30_encoding.md R41). -/

namespace Sys2Proof

/-- An 8-bit unit: a data byte, or a character as its ASCII code (R9). Bit 7 is the most significant bit (R31). -/
abbrev Byte := BitVec 8

/-- A 6-bit alphabet index (R9). -/
abbrev Sextet := BitVec 6

/-- A 12-bit command word (R41). -/
abbrev CmdWord := BitVec 12

end Sys2Proof
end

