-- ==== Sys2Proof/Config.lean ====
section
/-! DEFINITION. What an instance fixes (the decoder's tail mode) and the free values: constants with no body, of which nothing
can be proved, so that a statement holds whatever they are. -/

namespace Sys2Proof

/-- The parameter DEC_TAIL_MODE (00_scope.md R7). -/
inductive TailMode where
  /-- TRUNCATE, the reference value: DEC.END emits flag - 1 bytes (42_decoder.md R79). -/
  | truncate
  /-- FULL: DEC.END emits the whole buffer of a partial group (42_decoder.md R80). -/
  | full
  deriving DecidableEq, Repr

/-- DRAW8: the unconstrained byte of draw number n (00_scope.md R8; log entry 3). -/
opaque Config.freeByte : Nat → Byte

/-- The unspecified sextet an invalid character stands for, at draw number n (42_decoder.md R77; log entry 3). -/
opaque Config.freeSextet : Nat → Sextet

/-- The k bytes drawn from draw number n on, in the order drawn. -/
def Config.freshBytes (n : Nat) : Nat → List Byte
  | 0 => []
  | k + 1 => Config.freeByte n :: Config.freshBytes (n + 1) k

/-- enc.flag before the first RST: unspecified (70_reset_and_hazards.md R98; log entry 4). -/
opaque Config.powerOnEncFlag : Fin 3

/-- enc.prev before the first RST: unspecified (R98; log entry 4). -/
opaque Config.powerOnEncPrev : Sextet

/-- dec.flag before the first RST: unspecified (R98; log entry 4). -/
opaque Config.powerOnDecFlag : Fin 4

/-- dec.buf[i] before the first RST: unspecified (R98; log entry 4). -/
opaque Config.powerOnDecBuf : Fin 3 → Byte

/-- dec.stop before the first RST: unspecified (R98; log entry 4). -/
opaque Config.powerOnDecStop : Bool

/-- dec.taint before the first RST: unspecified (R98; log entry 4). -/
opaque Config.powerOnDecTaint : Bool

end Sys2Proof
end

