-- ==== Sys2Proof/Syntax.lean ====
section
/-! DEFINITION. The six commands of spec/opcode_table.json (30_encoding.md R43, R50). -/

namespace Sys2Proof

/-- The units a command can address, selected by bit U (R42). -/
inductive CodecUnit where
  /-- U = 0. -/
  | encoder
  /-- U = 1. -/
  | decoder
  deriving DecidableEq, Repr

/-- One command. END and CLR carry no operand: their D field is ignored (R44). -/
inductive Instr where
  /-- ENC.DATA d: consume one input byte (R59). -/
  | encData (d : Byte)
  /-- ENC.END: finalize the encoder stream (R64). -/
  | encEnd
  /-- ENC.CLR: start a new encoder stream (R65). -/
  | encClr
  /-- DEC.DATA d: consume one input character (R70). -/
  | decData (d : Byte)
  /-- DEC.END: emit the decoder's tail (R78). -/
  | decEnd
  /-- DEC.CLR: start a new decoder stream (R81). -/
  | decClr
  deriving DecidableEq, Repr

/-- The unit a command addresses (R42: no command touches both). -/
def Instr.unit : Instr → CodecUnit
  | .encData _ => .encoder
  | .encEnd => .encoder
  | .encClr => .encoder
  | .decData _ => .decoder
  | .decEnd => .decoder
  | .decClr => .decoder

end Sys2Proof
end

