-- ==== Sys2Proof/Machine/State.lean ====
section
/-! DEFINITION. The state of B64CORE (10_state.md R13), its reset value (70_reset_and_hazards.md R95), and the reasons a step
can stop. -/

namespace Sys2Proof.Machine

open Sys2Proof

/-- The encoder unit's state (R14, R15). -/
structure EncUnit where
  /-- enc.flag: the position in the current 3-byte group, typed as a number in 0, 1, 2 as R14 asks. -/
  flag : Fin 3
  /-- enc.prev: the carried bits of the previous byte not yet emitted (R15). -/
  prev : Sextet
  deriving DecidableEq, Repr

/-- The decoder unit's state (R17 to R21). -/
structure DecUnit where
  /-- dec.flag: the position in the current 4-character group (R17). -/
  flag : Fin 4
  /-- dec.buf[0], emitted first (R18). -/
  buf0 : Byte
  /-- dec.buf[1] (R18). -/
  buf1 : Byte
  /-- dec.buf[2], emitted last (R18). -/
  buf2 : Byte
  /-- dec.stop: a padding character has been taken (R20). -/
  stop : Bool
  /-- dec.taint: the current group holds an invalid character; specification-only (R21). -/
  taint : Bool
  deriving DecidableEq, Repr

/-- What the host puts on the block's inputs between two commands (60_exceptions.md R93). -/
inductive PortEvent where
  /-- A 12-bit command word (30_encoding.md R41). -/
  | cmd (w : CmdWord)
  /-- The reset input RST (70_reset_and_hazards.md R95). -/
  | rst
  deriving DecidableEq, Repr

/-- The machine's state. -/
structure State where
  /-- The encoder unit (R14, R15). -/
  enc : EncUnit
  /-- The decoder unit (R17 to R21). -/
  dec : DecUnit
  /-- ENC_OUT, oldest unit first (20_memory.md R34). -/
  encOut : List Byte
  /-- DEC_OUT, oldest unit first (20_memory.md R34). -/
  decOut : List Byte
  /-- DEC_TAIL_MODE, fixed for the life of the instance: no event writes it (00_scope.md R7; log entry 2). -/
  tailMode : TailMode
  /-- The MODEL's own: what the host has issued and the block has not yet taken, next event first (log entry 1). -/
  port : List PortEvent
  /-- The MODEL's own: the number of free values drawn so far (log entry 3). -/
  draws : Nat
  deriving DecidableEq, Repr

/-- The encoder's reset state (R14, R15, R95). -/
def EncUnit.reset : EncUnit := { flag := 0, prev := 0#6 }

/-- The decoder's reset state (R17, R18, R20, R21, R95). -/
def DecUnit.reset : DecUnit :=
  { flag := 0, buf0 := 0#8, buf1 := 0#8, buf2 := 0#8, stop := false, taint := false }

/-- The launch state of R98: both units reset, both output streams empty, the reference tail mode (R7), nothing issued yet. -/
def State.reset : State :=
  { enc := EncUnit.reset, dec := DecUnit.reset, encOut := [], decOut := [], tailMode := .truncate, port := [], draws := 0 }

/-- The faults of B64CORE: none. It raises no exception, has no trap and records no error (60_exceptions.md R86), so the type
has no constructor and no step can answer a fault. -/
inductive Fault where
  deriving DecidableEq, Repr

/-- Why a step has no next state. -/
inductive Refusal where
  /-- An instruction of the opcode table without a meaning in this model. Raised by nobody: every arm of exec has its meaning.
  Safe: nothing can be proved of a run past it. -/
  | notModelled (mnemonic : String)
  /-- A reserved command word, OP 011 to 111: the spec's refuse(RESERVED_OP), with no step (30_encoding.md R46,
  60_exceptions.md R88). Raised by the port when such a word is taken. Safe: no claim about a stream holding one can be proved. -/
  | reservedOp (w : CmdWord)
  deriving DecidableEq, Repr

end Sys2Proof.Machine
end

