-- ==== Sys2Proof/Machine/Memory.lean ====
section
/-! DEFINITION. The one address space: the alphabet ROM (20_memory.md R26, R28; contents 40_alphabet_padding.md R51). It is a
constant, not state (10_state.md R13), and no operation writes it. -/

namespace Sys2Proof.Machine

open Sys2Proof

/-- The canonical form of a memory: addresses strictly rising. -/
def Memory.wf : List Host.Cell → Bool
  | [] => true
  | [_] => true
  | a :: b :: m => decide (a.1 < b.1) && Memory.wf (b :: m)

/-- The byte listed at an address, if any. -/
def Memory.read : List Host.Cell → Nat → Option Byte
  | [], _ => none
  | (a, b) :: m, x => if x = a then some b else Memory.read m x

/-- Rows 0 to 15 of R51's table: `A` to `P`. -/
def alphabetRows0 : List Host.Cell :=
  [(0, 0x41), (1, 0x42), (2, 0x43), (3, 0x44), (4, 0x45), (5, 0x46), (6, 0x47), (7, 0x48),
   (8, 0x49), (9, 0x4A), (10, 0x4B), (11, 0x4C), (12, 0x4D), (13, 0x4E), (14, 0x4F), (15, 0x50)]

/-- Rows 16 to 31 of R51's table: `Q` to `Z`, `a` to `f`. -/
def alphabetRows1 : List Host.Cell :=
  [(16, 0x51), (17, 0x52), (18, 0x53), (19, 0x54), (20, 0x55), (21, 0x56), (22, 0x57), (23, 0x58),
   (24, 0x59), (25, 0x5A), (26, 0x61), (27, 0x62), (28, 0x63), (29, 0x64), (30, 0x65), (31, 0x66)]

/-- Rows 32 to 47 of R51's table: `g` to `v`. -/
def alphabetRows2 : List Host.Cell :=
  [(32, 0x67), (33, 0x68), (34, 0x69), (35, 0x6A), (36, 0x6B), (37, 0x6C), (38, 0x6D), (39, 0x6E),
   (40, 0x6F), (41, 0x70), (42, 0x71), (43, 0x72), (44, 0x73), (45, 0x74), (46, 0x75), (47, 0x76)]

/-- Rows 48 to 63 of R51's table: `w` to `z`, `0` to `9`, `+`, `/`. -/
def alphabetRows3 : List Host.Cell :=
  [(48, 0x77), (49, 0x78), (50, 0x79), (51, 0x7A), (52, 0x30), (53, 0x31), (54, 0x32), (55, 0x33),
   (56, 0x34), (57, 0x35), (58, 0x36), (59, 0x37), (60, 0x38), (61, 0x39), (62, 0x2B), (63, 0x2F)]

/-- The alphabet ROM, every index 0 to 63 populated (R26, R51). -/
def alphabetRom : List Host.Cell :=
  alphabetRows0 ++ alphabetRows1 ++ alphabetRows2 ++ alphabetRows3

/-- MemRead(i, 1) on the ROM space, the spec's only memory read (00_scope.md R12). A 6-bit index always finds its entry
(`alphabetRom_total` in Laws), so the 0 for a missing one is never answered. -/
def romRead (i : Sextet) : Byte := (Memory.read alphabetRom i.toNat).getD 0#8

end Sys2Proof.Machine
end

