-- ==== Sys2Proof/Machine/Alphabet.lean ====
section
/-! DEFINITION. The combinational parts: ALPHA, the padding character and its count, and the inverse-alphabet classifier
INV (40_alphabet_padding.md R51 to R57). -/

namespace Sys2Proof.Machine

open Sys2Proof

/-- ALPHA(i): the i-th entry of the alphabet table (R51). -/
def alpha (i : Sextet) : Byte := romRead i

/-- PAD: the padding character `=` (R53). -/
def padChar : Byte := 0x3D#8

/-- PADS(f) = 3 - f, the pads of a final group of f = 1 or 2 bytes; none at f = 0 (R57). -/
def pads (f : Fin 3) : Nat := if f = 0 then 0 else 3 - f.val

/-- The three results of INV (R54). -/
inductive CharClass where
  /-- One of the 64 alphabet characters, with the sextet it stands for. -/
  | valid (v : Sextet)
  /-- The padding character. -/
  | pad
  /-- One of the other 191 codes. -/
  | invalid
  deriving DecidableEq, Repr

/-- INV(c): the class of an 8-bit character code (R54). The decoder reads no table (20_memory.md R26). -/
def inv (c : Byte) : CharClass :=
  if c = 0x3D#8 then .pad
  else if c = 0x2B#8 then .valid 62#6
  else if c = 0x2F#8 then .valid 63#6
  else if 0x30#8 ≤ c ∧ c ≤ 0x39#8 then .valid ((c - 0x30#8 + 52#8).setWidth 6)
  else if 0x41#8 ≤ c ∧ c ≤ 0x5A#8 then .valid ((c - 0x41#8).setWidth 6)
  else if 0x61#8 ≤ c ∧ c ≤ 0x7A#8 then .valid ((c - 0x61#8 + 26#8).setWidth 6)
  else .invalid

end Sys2Proof.Machine
end

