-- ==== Sys2Proof/Machine/Flags.lean ====
section
/-! DEFINITION. The position counters' advance and the decoder's tail size. B64CORE has no flag register and no condition codes
(10_state.md R24): the counters and dec.stop are its only status-like state, and a command's rule names its writes of them. -/

namespace Sys2Proof.Machine

open Sys2Proof

/-- (f + 1) mod 3, after every consumed byte (41_encoder.md R63). -/
def encAdvance (f : Fin 3) : Fin 3 := f + 1

/-- (f + 1) mod 4, after every consumed non-padding character (10_state.md R17, 42_decoder.md R70). -/
def decAdvance (f : Fin 4) : Fin 4 := f + 1

/-- How many buffer bytes DEC.END emits at position f: none at 0; above it f - 1 in TRUNCATE mode and 3 in FULL mode
(42_decoder.md R78, R79, R80). -/
def tailLength (m : TailMode) (f : Fin 4) : Nat :=
  if f = 0 then 0
  else
    match m with
    | .truncate => f.val - 1
    | .full => 3

end Sys2Proof.Machine
end

