-- ==== Sys2Proof/Machine/Operands.lean ====
section
/-! DEFINITION. The bit fields the two datapaths take from the one operand D (30_encoding.md R44) and from the carried bits.
Every value is unsigned, slices are `v[hi:lo]`, `++` puts its left side in the high bits (00_scope.md R10), and a store
truncates to its destination's width (R11). -/

namespace Sys2Proof.Machine

open Sys2Proof

/-- d[7:2], the first character's index (R60). -/
def encIndex0 (d : Byte) : Sextet := d.extractLsb' 2 6

/-- d[1:0] ++ 0b0000, the carry after the first byte (R60). -/
def encCarry0 (d : Byte) : Sextet := d.extractLsb' 0 2 ++ 0#4

/-- p | zext_6(d[7:4]), the second character's index (R61). -/
def encIndex1 (p : Sextet) (d : Byte) : Sextet := p ||| (d.extractLsb' 4 4).setWidth 6

/-- d[3:0] ++ 0b00, the carry after the second byte (R61). -/
def encCarry1 (d : Byte) : Sextet := d.extractLsb' 0 4 ++ 0#2

/-- p | zext_6(d[7:6]), the third character's index (R62). -/
def encIndex2 (p : Sextet) (d : Byte) : Sextet := p ||| (d.extractLsb' 6 2).setWidth 6

/-- d[5:0], the fourth character's index (R62). -/
def encIndex3 (d : Byte) : Sextet := d.extractLsb' 0 6

/-- v << 2, the first byte's top 6 bits (R73). -/
def decStart0 (v : Sextet) : Byte := v.setWidth 8 <<< 2

/-- b | (v >> 4), which completes the first byte (R74). -/
def decFinish0 (b : Byte) (v : Sextet) : Byte := b ||| (v >>> 4).setWidth 8

/-- trunc_8(v << 4), which starts the second byte (R74). -/
def decStart1 (v : Sextet) : Byte := v.setWidth 8 <<< 4

/-- b | (v >> 2), which completes the second byte (R75). -/
def decFinish1 (b : Byte) (v : Sextet) : Byte := b ||| (v >>> 2).setWidth 8

/-- trunc_8(v << 6), which starts the third byte (R75). -/
def decStart2 (v : Sextet) : Byte := v.setWidth 8 <<< 6

/-- b | v, which completes the third byte (R76). -/
def decFinish2 (b : Byte) (v : Sextet) : Byte := b ||| v.setWidth 8

end Sys2Proof.Machine
end

