-- ==== Sys2Proof/Machine/Ops.lean ====
section
/-! DEFINITION. The named operations on the state (00_scope.md R12), the draws (R8) and reset (70_reset_and_hazards.md R95).
There is no operation that takes an exception and none that returns from one: B64CORE has neither (60_exceptions.md R86, R91). -/

namespace Sys2Proof.Machine

open Sys2Proof

/-- Write the encoder unit's registers. -/
def State.setEnc (u : EncUnit) (s : State) : State := { s with enc := u }

/-- Write the decoder unit's registers. -/
def State.setDec (u : DecUnit) (s : State) : State := { s with dec := u }

/-- emit_enc of each character in the order written (R12, 20_memory.md R34). -/
def emitEnc (cs : List Byte) (s : State) : State := { s with encOut := s.encOut ++ cs }

/-- emit_dec of each byte in the order written (R12, 20_memory.md R34). -/
def emitDec (bs : List Byte) (s : State) : State := { s with decOut := s.decOut ++ bs }

/-- A fresh DRAW8 and the state after the draw (R8). -/
def drawByte (s : State) : Byte × State :=
  (Config.freeByte s.draws, { s with draws := s.draws + 1 })

/-- A fresh unspecified sextet, for an invalid character, and the state after the draw (42_decoder.md R77). -/
def drawSextet (s : State) : Sextet × State :=
  (Config.freeSextet s.draws, { s with draws := s.draws + 1 })

/-- emit_dec(t ? DRAW8 : b) (42_decoder.md R70, R78). -/
def emitGroupByte (t : Bool) (b : Byte) (s : State) : State :=
  if t then emitDec [(drawByte s).1] (drawByte s).2 else emitDec [b] s

/-- The same for several bytes, in the order written; each byte of a tainted group is a draw of its own (R8). -/
def emitGroup (t : Bool) : List Byte → State → State
  | [], s => s
  | b :: bs, s => emitGroup t bs (emitGroupByte t b s)

/-- Put the encoder in its reset state (R95, R97). -/
def resetEnc (s : State) : State := s.setEnc EncUnit.reset

/-- Put the decoder in its reset state (R95, R97). -/
def resetDec (s : State) : State := s.setDec DecUnit.reset

/-- RST: both units reset; nothing is emitted, and the output streams and the tail mode stay (R95). -/
def applyRst (s : State) : State := resetDec (resetEnc s)

/-- The machine before its first RST: every unit element unspecified (R98), here a free value each. -/
def powerOn : State :=
  { State.reset with
    enc := { flag := Config.powerOnEncFlag, prev := Config.powerOnEncPrev }
    dec := { flag := Config.powerOnDecFlag, buf0 := Config.powerOnDecBuf 0, buf1 := Config.powerOnDecBuf 1,
             buf2 := Config.powerOnDecBuf 2, stop := Config.powerOnDecStop, taint := Config.powerOnDecTaint } }

end Sys2Proof.Machine
end

