-- ==== Sys2Proof/Machine/Decoder.lean ====
section
/-! DEFINITION. The decoder's commands DEC.DATA, DEC.END, DEC.CLR (42_decoder.md R70 to R81). -/

namespace Sys2Proof.Machine

open Sys2Proof

/-- Consume a character as the sextet v, with t the taint of its group so far: the case of R73, R74, R75 or R76 that the
position selects, then the advance (R70). -/
def decConsume (v : Sextet) (t : Bool) (s : State) : State :=
  let u := s.dec
  match u.flag with
  | 0 => s.setDec { u with buf0 := decStart0 v, taint := t, flag := decAdvance u.flag }
  | 1 => s.setDec { u with buf0 := decFinish0 u.buf0 v, buf1 := decStart1 v, taint := t, flag := decAdvance u.flag }
  | 2 => s.setDec { u with buf1 := decFinish1 u.buf1 v, buf2 := decStart2 v, taint := t, flag := decAdvance u.flag }
  | 3 => (emitGroup t [u.buf0, u.buf1, decFinish2 u.buf2 v] s).setDec
      { u with buf0 := 0#8, buf1 := 0#8, buf2 := 0#8, taint := false, flag := decAdvance u.flag }

/-- DEC.DATA d (R70): ignored while stopped (R71); `=` stops (R72); a valid character is consumed with its sextet (R73 to R76);
an invalid one with an unspecified sextet, and its group is tainted (R77). -/
def execDecData (d : Byte) (s : State) : Host.Outcome State Fault Refusal :=
  if s.dec.stop then .next s
  else
    match inv d with
    | .pad => .next (s.setDec { s.dec with stop := true })
    | .valid v => .next (decConsume v s.dec.taint s)
    | .invalid => .next (decConsume (drawSextet s).1 true (drawSextet s).2)

/-- DEC.END (R78; the number of bytes R79, R80). -/
def execDecEnd (s : State) : Host.Outcome State Fault Refusal :=
  .next (resetDec (emitGroup s.dec.taint
    ([s.dec.buf0, s.dec.buf1, s.dec.buf2].take (tailLength s.tailMode s.dec.flag)) s))

/-- DEC.CLR (R81). -/
def execDecClr (s : State) : Host.Outcome State Fault Refusal :=
  .next (resetDec s)

end Sys2Proof.Machine
end

