-- ==== Sys2Proof/Machine/Encoder.lean ====
section
/-! DEFINITION. The encoder's commands ENC.DATA, ENC.END, ENC.CLR (41_encoder.md R59 to R65). -/

namespace Sys2Proof.Machine

open Sys2Proof

/-- The characters ENC.DATA d emits, by the position before it (R60, R61, R62). -/
def encDataChars (u : EncUnit) (d : Byte) : List Byte :=
  match u.flag with
  | 0 => [alpha (encIndex0 d)]
  | 1 => [alpha (encIndex1 u.prev d)]
  | 2 => [alpha (encIndex2 u.prev d), alpha (encIndex3 d)]

/-- The carry ENC.DATA d leaves, by the position before it (R60, R61, R62). -/
def encDataCarry (u : EncUnit) (d : Byte) : Sextet :=
  match u.flag with
  | 0 => encCarry0 d
  | 1 => encCarry1 d
  | 2 => 0#6

/-- The characters ENC.END emits: none on a group boundary, else the carry's character and the pads (R64). -/
def encTail (u : EncUnit) : List Byte :=
  if u.flag = 0 then [] else alpha u.prev :: List.replicate (pads u.flag) padChar

/-- ENC.DATA d (R59; cases R60, R61, R62; advance R63). -/
def execEncData (d : Byte) (s : State) : Host.Outcome State Fault Refusal :=
  .next ((emitEnc (encDataChars s.enc d) s).setEnc
    { flag := encAdvance s.enc.flag, prev := encDataCarry s.enc d })

/-- ENC.END (R64). -/
def execEncEnd (s : State) : Host.Outcome State Fault Refusal :=
  .next (resetEnc (emitEnc (encTail s.enc) s))

/-- ENC.CLR (R65). -/
def execEncClr (s : State) : Host.Outcome State Fault Refusal :=
  .next (resetEnc s)

end Sys2Proof.Machine
end

