-- ==== Sys2Proof/Machine/Dispatch.lean ====
section
/-! DEFINITION. One arm per command of the opcode table, each calling its meaning. -/

namespace Sys2Proof.Machine

open Sys2Proof

def exec (i : Instr) (s : State) : Host.Outcome State Fault Refusal :=
  match i with
  | .encData d => Sys2Proof.Machine.execEncData d s
  | .encEnd => Sys2Proof.Machine.execEncEnd s
  | .encClr => Sys2Proof.Machine.execEncClr s
  | .decData d => Sys2Proof.Machine.execDecData d s
  | .decEnd => Sys2Proof.Machine.execDecEnd s
  | .decClr => Sys2Proof.Machine.execDecClr s

end Sys2Proof.Machine
end

