-- ==== Sys2Proof/WellFormed.lean ====
section
/-! DEFINITION. What the host may issue: every command (its operand is any byte, R44), and of the command words only those
whose OP field is 000, 001 or 010 (30_encoding.md R46, 70_reset_and_hazards.md R99 item 1). -/

namespace Sys2Proof

/-- A command is well formed for every operand value: D is 8 bits and "any byte value 0–255 is accepted" (R44), and the
type holds nothing else. -/
def Instr.wellFormed : Instr → Bool
  | .encData _ => true
  | .encEnd => true
  | .encClr => true
  | .decData _ => true
  | .decEnd => true
  | .decClr => true

/-- A word spells a command when its OP field, bits 10:8, is below 011 (R43, R46). -/
def wordWellFormed (w : CmdWord) : Bool :=
  decide ((w.extractLsb' 8 3).toNat < 3)

end Sys2Proof
end

