-- ==== Sys2Proof/Decode.lean ====
section
/-! DEFINITION. Decoding and encoding of the 12-bit command words (30_encoding.md R41 to R47, R50). -/

namespace Sys2Proof

/-- Why a word is no command. -/
inductive DecodeReject where
  /-- OP is 011 to 111, for either U: the word is reserved (R46). -/
  | reserved (w : CmdWord)
  deriving DecidableEq, Repr

/-- Bit 11, the unit select U (R41, R42). -/
def unitField (w : CmdWord) : BitVec 1 := w.extractLsb' 11 1

/-- Bits 10:8, the operation OP (R41, R43). -/
def opField (w : CmdWord) : BitVec 3 := w.extractLsb' 8 3

/-- Bits 7:0, the data unit D, used unchanged (R41, R44). -/
def dataField (w : CmdWord) : Byte := w.extractLsb' 0 8

/-- The command a word spells, total on the 12-bit words (R45). -/
def decode (w : CmdWord) : Except DecodeReject Instr :=
  if opField w = 0b000#3 then
    .ok (if unitField w = 0#1 then .encData (dataField w) else .decData (dataField w))
  else if opField w = 0b001#3 then
    .ok (if unitField w = 0#1 then .encEnd else .decEnd)
  else if opField w = 0b010#3 then
    .ok (if unitField w = 0#1 then .encClr else .decClr)
  else
    .error (.reserved w)

/-- A word from its three fields, U in the highest bit (R41's diagram). -/
def wordOf (u : BitVec 1) (op : BitVec 3) (d : Byte) : CmdWord := u ++ op ++ d

/-- The word an assembler writes for a command; the ignored D of END and CLR is 0 (R44, R50). -/
def encode : Instr → CmdWord
  | .encData d => wordOf 0#1 0b000#3 d
  | .encEnd => wordOf 0#1 0b001#3 0x00#8
  | .encClr => wordOf 0#1 0b010#3 0x00#8
  | .decData d => wordOf 1#1 0b000#3 d
  | .decEnd => wordOf 1#1 0b001#3 0x00#8
  | .decClr => wordOf 1#1 0b010#3 0x00#8

/-- The bits of a word the decoder reads for a command: all of them for DATA, bits 11:8 for END and CLR, whose D is ignored
(R44). R50's table lists the mask 0xF00 for every row: for DATA, too, bits 11:8 alone select the row, and D is the operand. -/
def readMask : Instr → CmdWord
  | .encData _ => 0xFFF#12
  | .encEnd => 0xF00#12
  | .encClr => 0xF00#12
  | .decData _ => 0xFFF#12
  | .decEnd => 0xF00#12
  | .decClr => 0xF00#12

/-- The instruction read from an instruction whose bits are w. Every command is one 12-bit word (R47), so the table's
rows have no bits above bit 11 and a number with one is no command word. -/
def decodeTableWord (_nbits w : Nat) : Option Instr :=
  if w < 4096 then
    match decode (BitVec.ofNat 12 w) with
    | .ok i => some i
    | .error _ => none
  else
    none

end Sys2Proof
end

