-- ==== Sys2Proof/Machine/Port.lean ====
section
/-! DEFINITION. The command port: what the block does with the next thing the host issued (00_scope.md R6, 20_memory.md R35).
This takes the place of an instruction fetch, which B64CORE has not (10_state.md R23, 20_memory.md R39). -/

namespace Sys2Proof.Machine

open Sys2Proof

/-- What one step takes from the port. -/
inductive Taken where
  /-- Nothing is issued: an idle step, which changes nothing (60_exceptions.md R94). -/
  | idle
  /-- RST was applied; the state after it. -/
  | wasReset (s : State)
  /-- A command, with the state it runs in: the event is off the port, nothing else has changed. -/
  | command (i : Instr) (s : State)
  /-- A reserved word (30_encoding.md R46). -/
  | reserved (w : CmdWord)

/-- Take the next event from the port, in issue order. -/
def takeEvent (s : State) : Taken :=
  match s.port with
  | [] => .idle
  | .rst :: rest => .wasReset (applyRst { s with port := rest })
  | .cmd w :: rest =>
    match decode w with
    | .ok i => .command i { s with port := rest }
    | .error (.reserved w') => .reserved w'

/-- The host issues one more event, after those already issued. -/
def issue (e : PortEvent) (s : State) : State := { s with port := s.port ++ [e] }

/-- Put a command word where the next step takes it from. The port has 12 wires (R41). -/
def placeWord (w : Nat) (s : State) : State := { s with port := .cmd (BitVec.ofNat 12 w) :: s.port }

end Sys2Proof.Machine
end

