-- ==== Sys2Proof/Machine/Step.lean ====
section
/-! DEFINITION. One step: take the next event from the port and run it (00_scope.md R6). -/

namespace Sys2Proof.Machine

open Sys2Proof

/-- One step of the machine. -/
def step (s : State) : Host.Outcome State Fault Refusal :=
  match takeEvent s with
  | .idle => .next s
  | .wasReset t => .next t
  | .command i t => exec i t
  | .reserved w => .refused (.reservedOp w)

/-- s with the instruction whose bits are w at the head of the port, so that the next step takes it (log entry 1). -/
def State.withFetchWord (s : State) (_nbits w : Nat) : State := placeWord w s

end Sys2Proof.Machine
end

