-- ==== Sys2Proof/Machine/Pseudo.lean ====
section
/-! DEFINITION. The pseudo-instructions of 30_encoding.md R49, each a fixed sequence of commands. -/

namespace Sys2Proof.Machine

open Sys2Proof

/-- ENC.BYTES b1, ..., bn: one ENC.DATA for each byte. -/
def encBytes (bs : List Byte) : List Instr := bs.map .encData

/-- ENC.STREAM b1, ..., bn: one whole encode call. -/
def encStream (bs : List Byte) : List Instr := .encClr :: (encBytes bs ++ [.encEnd])

/-- DEC.CHARS "s": one DEC.DATA for each character. -/
def decChars (cs : List Byte) : List Instr := cs.map .decData

/-- DEC.STREAM "s": one whole decode call. -/
def decStream (cs : List Byte) : List Instr := .decClr :: (decChars cs ++ [.decEnd])

end Sys2Proof.Machine
end

