-- ==== Sys2Proof/Machine/Assembler.lean ====
section
/-! DEFINITION. The assembler's lines: 30_encoding.md R48 (the six commands) and R49 (the pseudo-instructions). This is notation for
command words, no behaviour of the block. A line that R48 and R49 do not describe is rejected; what they leave open of
blanks, commas, digits, quotes and escapes is log entry 6. -/

namespace Sys2Proof.Machine

open Sys2Proof

/-- A blank: a space or a tab. -/
def isBlank (c : Char) : Bool := c == ' ' || c == '\t'

/-- The text without its leading blanks. -/
def skipBlanks : List Char → List Char
  | [] => []
  | c :: cs => if isBlank c then skipBlanks cs else c :: cs

/-- Nothing but blanks and a comment is left (R48: `;` starts a comment to end of line). -/
def atEnd (cs : List Char) : Bool :=
  match skipBlanks cs with
  | [] => true
  | c :: _ => c == ';'

/-- The leading mnemonic, in capitals (R48: case-insensitive), and the text after it. -/
def takeWord : List Char → List Char × List Char
  | [] => ([], [])
  | c :: cs =>
    if isBlank c || c == ';' then ([], c :: cs)
    else (c.toUpper :: (takeWord cs).1, (takeWord cs).2)

/-- A decimal digit's value. -/
def decDigit (c : Char) : Option Nat :=
  if '0'.toNat ≤ c.toNat ∧ c.toNat ≤ '9'.toNat then some (c.toNat - '0'.toNat) else none

/-- A hexadecimal digit's value, in either case. -/
def hexDigit (c : Char) : Option Nat :=
  if 'A'.toNat ≤ c.toUpper.toNat ∧ c.toUpper.toNat ≤ 'F'.toNat then some (c.toUpper.toNat - 'A'.toNat + 10)
  else decDigit c

/-- The digits at the front of the text, read in a base onto the number so far, and the text after them. -/
def takeDigits (base : Nat) (digit : Char → Option Nat) : Nat → List Char → Nat × List Char
  | n, [] => (n, [])
  | n, c :: cs =>
    match digit c with
    | some k => takeDigits base digit (n * base + k) cs
    | none => (n, c :: cs)

/-- A number that begins with a digit and is at most 255. -/
def takeNumber (base : Nat) (digit : Char → Option Nat) (cs : List Char) : Option (Byte × List Char) :=
  match cs with
  | [] => none
  | c :: rest =>
    match digit c with
    | none => none
    | some k =>
      if (takeDigits base digit k rest).1 < 256 then
        some (BitVec.ofNat 8 (takeDigits base digit k rest).1, (takeDigits base digit k rest).2)
      else none

/-- A character's ASCII code (R48); every code below 128 counts, control characters among them, and a character outside ASCII
has none. DESIGN CHOICE, safe (log entry 6): R48 does not say which characters may stand in quotes. -/
def asciiCode (c : Char) : Option Byte :=
  if c.toNat < 128 then some (BitVec.ofNat 8 c.toNat) else none

/-- One byte or character operand: a quoted character, a hexadecimal or a decimal number (R48). DESIGN CHOICE, safe (log entry 6): R48
is silent on escapes, and here there are none. Exactly one character stands between the single quotes and is taken as it is:
a single quote, a double quote, a backslash or a control character too. -/
def takeUnit (cs : List Char) : Option (Byte × List Char) :=
  match skipBlanks cs with
  | '\x27' :: c :: '\x27' :: rest => (asciiCode c).map fun b => (b, rest)
  | '0' :: 'x' :: rest => takeNumber 16 hexDigit rest
  | rest => takeNumber 10 decDigit rest

/-- The operands after a comma, until the line's end; the first argument bounds their number by the text's length. -/
def takeMoreUnits : Nat → List Char → Option (List Byte)
  | 0, _ => none
  | k + 1, cs =>
    match skipBlanks cs with
    | ',' :: rest =>
      match takeUnit rest with
      | some (b, rest') => (takeMoreUnits k rest').map fun bs => b :: bs
      | none => none
    | rest => if atEnd rest then some [] else none

/-- n ≥ 0 operands with commas between them, then the line's end (R49). DESIGN CHOICE, safe (log entry 6): blanks may stand around a
comma, and a comma with no operand after it is rejected. -/
def takeUnits (cs : List Char) : Option (List Byte) :=
  if atEnd cs then some []
  else
    match takeUnit cs with
    | some (b, rest) => (takeMoreUnits (rest.length + 1) rest).map fun bs => b :: bs
    | none => none

/-- The characters up to a closing double quote, then the line's end (R49). DESIGN CHOICE, safe (log entry 6): R49 is silent on escapes,
and here there are none. The string ends at its first double quote, so it can hold none; a backslash is an ordinary
character of it, and a control character is written as itself. -/
def takeQuoted : List Char → Option (List Byte)
  | [] => none
  | '\x22' :: rest => if atEnd rest then some [] else none
  | c :: rest =>
    match asciiCode c, takeQuoted rest with
    | some b, some bs => some (b :: bs)
    | _, _ => none

/-- A string in double quotes, then the line's end (R49). -/
def takeString (cs : List Char) : Option (List Byte) :=
  match skipBlanks cs with
  | '\x22' :: rest => takeQuoted rest
  | _ => none

/-- Exactly one operand, then the line's end (R48). -/
def takeOnlyUnit (cs : List Char) : Option Byte :=
  match takeUnit cs with
  | some (b, rest) => if atEnd rest then some b else none
  | none => none

/-- The commands one line stands for, after its mnemonic; none where no line of R48 or R49 reads so. -/
def asmOperands (mnemonic rest : List Char) : Option (List Instr) :=
  if mnemonic = ['E', 'N', 'C', '.', 'D', 'A', 'T', 'A'] then (takeOnlyUnit rest).map fun b => [.encData b]
  else if mnemonic = ['E', 'N', 'C', '.', 'E', 'N', 'D'] then (if atEnd rest then some [.encEnd] else none)
  else if mnemonic = ['E', 'N', 'C', '.', 'C', 'L', 'R'] then (if atEnd rest then some [.encClr] else none)
  else if mnemonic = ['D', 'E', 'C', '.', 'D', 'A', 'T', 'A'] then (takeOnlyUnit rest).map fun b => [.decData b]
  else if mnemonic = ['D', 'E', 'C', '.', 'E', 'N', 'D'] then (if atEnd rest then some [.decEnd] else none)
  else if mnemonic = ['D', 'E', 'C', '.', 'C', 'L', 'R'] then (if atEnd rest then some [.decClr] else none)
  else if mnemonic = ['E', 'N', 'C', '.', 'B', 'Y', 'T', 'E', 'S'] then (takeUnits rest).map encBytes
  else if mnemonic = ['E', 'N', 'C', '.', 'S', 'T', 'R', 'E', 'A', 'M'] then (takeUnits rest).map encStream
  else if mnemonic = ['D', 'E', 'C', '.', 'C', 'H', 'A', 'R', 'S'] then (takeString rest).map decChars
  else if mnemonic = ['D', 'E', 'C', '.', 'S', 'T', 'R', 'E', 'A', 'M'] then (takeString rest).map decStream
  else none

/-- The commands one line of assembler text stands for; a line of blanks and a comment stands for none. -/
def asmLine (line : List Char) : Option (List Instr) :=
  if atEnd line then some []
  else asmOperands (takeWord (skipBlanks line)).1 (takeWord (skipBlanks line)).2

/-- The command words of a text, line after line (R48: one command per line). -/
def assemble : List (List Char) → Option (List CmdWord)
  | [] => some []
  | l :: ls =>
    match asmLine l, assemble ls with
    | some is, some ws => some (is.map encode ++ ws)
    | _, _ => none

/-- The decimal digit of a number below 10. -/
def digitChar (n : Nat) : Char := Char.ofNat ('0'.toNat + n % 10)

/-- A byte as a three-digit decimal number. -/
def printByte (b : Byte) : List Char :=
  [digitChar (b.toNat / 100), digitChar (b.toNat / 10), digitChar b.toNat]

/-- One command as a line of assembler text (R48). -/
def printInstr : Instr → List Char
  | .encData d => ['E', 'N', 'C', '.', 'D', 'A', 'T', 'A', ' '] ++ printByte d
  | .encEnd => ['E', 'N', 'C', '.', 'E', 'N', 'D']
  | .encClr => ['E', 'N', 'C', '.', 'C', 'L', 'R']
  | .decData d => ['D', 'E', 'C', '.', 'D', 'A', 'T', 'A', ' '] ++ printByte d
  | .decEnd => ['D', 'E', 'C', '.', 'E', 'N', 'D']
  | .decClr => ['D', 'E', 'C', '.', 'C', 'L', 'R']

end Sys2Proof.Machine
end

