-- ==== Sys2Proof/Machine/Run.lean ====
section
/-! DEFINITION. Sequences of commands: the left fold of the command rules (20_memory.md R35), a run and what is observed of its
end (70_reset_and_hazards.md R104). -/

namespace Sys2Proof.Machine

open Sys2Proof

/-- The commands one after another, stopping at the first that has no next state (R35). -/
def runInstrs : List Instr → State → Host.Outcome State Fault Refusal
  | [], s => .next s
  | i :: is, s =>
    match exec i s with
    | .next t => runInstrs is t
    | .fault r => .fault r
    | .refused r => .refused r

/-- s with a list of command words issued, none of them taken yet (R104). -/
def State.withWords (ws : List CmdWord) (s : State) : State := { s with port := ws.map .cmd }

/-- What is observed of the end of a run (R104): the pair of output sequences with the final unit state. -/
structure Observation where
  encOut : List Byte
  decOut : List Byte
  enc : EncUnit
  dec : DecUnit
  deriving DecidableEq, Repr

/-- The observation of a state (R104). -/
def observe (s : State) : Observation :=
  { encOut := s.encOut, decOut := s.decOut, enc := s.enc, dec := s.dec }

/-- The state a step or a run answers, if it answers one. -/
def nextState : Host.Outcome State Fault Refusal → Option State
  | .next s => some s
  | .fault _ => none
  | .refused _ => none

end Sys2Proof.Machine
end

