-- ==== Sys2Proof/Safety.lean ====
section
/-! DEFINITION. The terms in which statements speak of states and runs: the spec's invariants (10_state.md R16, R19), the alphabet
closure (40_alphabet_padding.md R58), the host's duty (70_reset_and_hazards.md R99 item 1), and which fields of two states agree. -/

namespace Sys2Proof.Safety

open Sys2Proof Sys2Proof.Machine

/-- R16: the carry holds only the bits its position leaves room for. -/
def encCarryOk (u : EncUnit) : Bool :=
  match u.flag with
  | 0 => u.prev == 0#6
  | 1 => u.prev.extractLsb' 0 4 == 0#4
  | 2 => u.prev.extractLsb' 0 2 == 0#2

/-- R19's four clauses: the buffer holds only the bits its position leaves room for. -/
def decBufferClean (u : DecUnit) : Bool :=
  match u.flag with
  | 0 => u.buf0 == 0#8 && u.buf1 == 0#8 && u.buf2 == 0#8
  | 1 => u.buf0.extractLsb' 0 2 == 0#2 && u.buf1 == 0#8 && u.buf2 == 0#8
  | 2 => u.buf1.extractLsb' 0 4 == 0#4 && u.buf2 == 0#8
  | 3 => u.buf2.extractLsb' 0 6 == 0#6

/-- R19: the buffer is clean when the group holds no invalid character. -/
def decBufferOk (u : DecUnit) : Bool := u.taint || decBufferClean u

/-- A code of `[A-Za-z0-9+/=]`, by its ranges (R58). -/
def inAlphabetOrPad (c : Byte) : Bool :=
  (decide (0x41 ≤ c.toNat) && decide (c.toNat ≤ 0x5A)) || (decide (0x61 ≤ c.toNat) && decide (c.toNat ≤ 0x7A)) ||
  (decide (0x30 ≤ c.toNat) && decide (c.toNat ≤ 0x39)) || c.toNat == 0x2B || c.toNat == 0x2F || c.toNat == 0x3D

/-- Every unit on ENC_OUT is a code of `[A-Za-z0-9+/=]` (R58). -/
def encOutClosed (s : State) : Prop := ∀ c ∈ s.encOut, inAlphabetOrPad c = true

/-- The host keeps its first duty: every command word still on the port is one of the six (R99 item 1). -/
def portObeys (s : State) : Prop := ∀ w, PortEvent.cmd w ∈ s.port → wordWellFormed w = true

/-- t agrees with s outside the encoder unit and its output stream. -/
def sameButEncoder (s t : State) : Prop := t = { s with enc := t.enc, encOut := t.encOut }

/-- t agrees with s outside the decoder unit, its output stream and the model's count of draws. -/
def sameButDecoder (s t : State) : Prop := t = { s with dec := t.dec, decOut := t.decOut, draws := t.draws }

/-- Two states that differ at most in the buffer of a tainted group (42_decoder.md R77). -/
def sameButTaintedBuffer (s t : State) : Prop :=
  t = { s with dec := { s.dec with buf0 := t.dec.buf0, buf1 := t.dec.buf1, buf2 := t.dec.buf2 } } ∧
  (s.dec.taint = false → t = s)

end Sys2Proof.Safety
end

