-- ==== Sys2Proof/Certificates/Slice0/Obligations.lean ====
section
/-! DEFINITION. The statements for the provers. Each docstring names the rule of spec/ its statement formalises. -/

open Sys2Proof Sys2Proof.Machine Sys2Proof.Safety

/-! ### Decoding -/

/-- A few words of R50's listing, written out, decode to the commands they spell, and reserved words to none (95_test_vectors.md
DV-C-1 to DV-C-14). -/
def Obligations.TableWordsDecode : Prop :=
  decode 0x000#12 = .ok (.encData 0x00#8) ∧ decode 0x0FF#12 = .ok (.encData 0xFF#8) ∧
  decode 0x100#12 = .ok .encEnd ∧ decode 0x1FF#12 = .ok .encEnd ∧
  decode 0x200#12 = .ok .encClr ∧ decode 0x2AB#12 = .ok .encClr ∧
  decode 0x800#12 = .ok (.decData 0x00#8) ∧ decode 0x83D#12 = .ok (.decData 0x3D#8) ∧
  decode 0x93D#12 = .ok .decEnd ∧ decode 0xA00#12 = .ok .decClr ∧
  decode 0x300#12 = .error (.reserved 0x300#12) ∧ decode 0x7FF#12 = .error (.reserved 0x7FF#12) ∧
  decode 0xB00#12 = .error (.reserved 0xB00#12) ∧ decode 0xFFF#12 = .error (.reserved 0xFFF#12)

/-- R45, in its hex forms: each command's word, at every value of D, decodes to that command, with D as the operand of DATA and
ignored elsewhere; every word whose OP is 011 or above is RESERVED. -/
def Obligations.HexFormsDecode : Prop :=
  (∀ d : Byte,
    decode (0x000#12 ||| d.setWidth 12) = .ok (.encData d) ∧
    decode (0x100#12 ||| d.setWidth 12) = .ok .encEnd ∧
    decode (0x200#12 ||| d.setWidth 12) = .ok .encClr ∧
    decode (0x800#12 ||| d.setWidth 12) = .ok (.decData d) ∧
    decode (0x900#12 ||| d.setWidth 12) = .ok .decEnd ∧
    decode (0xA00#12 ||| d.setWidth 12) = .ok .decClr) ∧
  ∀ w : CmdWord, 3 ≤ w.toNat / 256 % 8 → decode w = .error (.reserved w)

/-- Decoding gives back every encoded command, with every operand (R45, R50). -/
def Obligations.DecodeEncodeAgree : Prop :=
  ∀ i : Instr, i.wellFormed = true → decode (encode i) = .ok i

/-- A word decodes to a command exactly when it equals the command's word on the bits that are read: all bits for DATA, bits 11:8
for END and CLR (R50's match and mask, with D as operand or ignored, R44). So no word spells two commands. -/
def Obligations.DecodeIffMaskedMatch : Prop :=
  ∀ (w : CmdWord) (i : Instr), decode w = .ok i ↔ w &&& readMask i = encode i

/-- A word with OP in 011 to 111, for either U, spells no command (R46), and a step that takes one from the port (log entry 1) is refused,
whatever the state. -/
def Obligations.ReservedWordRefused : Prop :=
  ∀ (s : State) (w : CmdWord) (rest : List PortEvent),
    s.port = .cmd w :: rest → 3 ≤ (w.extractLsb' 8 3).toNat →
      decode w = .error (.reserved w) ∧ step s = .refused (.reservedOp w)

/-! ### The port -/

/-- A step whose next event is a word that decodes to a command runs that command, in the state with that one event taken off the port
(log entry 1; R6, R35). -/
def Obligations.StepRunsDecodedCommand : Prop :=
  ∀ (s : State) (w : CmdWord) (rest : List PortEvent) (i : Instr),
    s.port = .cmd w :: rest → decode w = .ok i → i.wellFormed = true → step s = exec i { s with port := rest }

/-- A word placed at the head of the port is the command the next step runs, in the state it was placed in. -/
def Obligations.PlacedWordRuns : Prop :=
  ∀ (s : State) (nbits w : Nat) (i : Instr),
    decodeTableWord nbits w = some i → step (s.withFetchWord nbits w) = exec i s

/-- R95: RST puts both units in their reset state, and changes nothing else: neither output stream, nor the tail mode. -/
def Obligations.RstResetsBothUnits : Prop :=
  ∀ s : State, applyRst s = { s with
    enc := { flag := 0, prev := 0#6 }
    dec := { flag := 0, buf0 := 0#8, buf1 := 0#8, buf2 := 0#8, stop := false, taint := false } }

/-- The model's choice (log entry 1) of what a step does without a command: RST at the head of the port is taken off it and applied, and
with nothing on the port the step changes nothing. -/
def Obligations.StepWithoutCommand : Prop :=
  ∀ s : State, (∀ rest, s.port = .rst :: rest → step s = .next (applyRst { s with port := rest })) ∧
    (s.port = [] → step s = .next s)

/-- Taking the words of a list of commands from the port, one a step, is the left fold of the command rules over the list (R35; the port,
log entry 1). The two sides are one run told twice, so they make the same draws (log entry 3). -/
def Obligations.PortRunIsFold : Prop :=
  ∀ (is : List Instr) (s : State),
    Host.Core.run core is.length (s.withWords (is.map encode)) = runInstrs is (s.withWords [])

/-- While the host keeps its first duty (R99 item 1), no step is refused, and the duty stays kept. -/
def Obligations.ObedientPortNeverStops : Prop :=
  ∀ s : State, portObeys s → ∃ t, step s = .next t ∧ portObeys t

/-! ### Reset and launch -/

/-- The launch state has every element of R13's table at its reset value, both streams empty, and the reference tail mode (R7, R13,
R95, R98). -/
def Obligations.ResetStateValues : Prop :=
  State.reset.enc.flag = 0 ∧ State.reset.enc.prev = 0#6 ∧ State.reset.dec.flag = 0 ∧
  State.reset.dec.buf0 = 0#8 ∧ State.reset.dec.buf1 = 0#8 ∧ State.reset.dec.buf2 = 0#8 ∧
  State.reset.dec.stop = false ∧ State.reset.dec.taint = false ∧
  State.reset.encOut = [] ∧ State.reset.decOut = [] ∧ State.reset.tailMode = .truncate

/-- From the unspecified power-on state, RST, or ENC.CLR and DEC.CLR, give the launch state (R98). The equality takes in the model's own
fields: power-on leaves the streams empty and the count of draws at its start (log entries 3, 4). -/
def Obligations.PowerOnThenResetLaunches : Prop :=
  step { powerOn with port := [.rst] } = .next State.reset ∧ runInstrs [.encClr, .decClr] powerOn = .next State.reset

/-- R97: END, CLR and RST leave a unit in the same state, its reset state, from every state; END emits the tail before, CLR and RST emit
nothing. -/
def Obligations.ThreeWaysToResetAgree : Prop :=
  ∀ s : State,
    (∃ a b, exec .encEnd s = .next a ∧ exec .encClr s = .next b ∧
      a.enc = EncUnit.reset ∧ b.enc = EncUnit.reset ∧ (applyRst s).enc = EncUnit.reset ∧
      a.encOut = s.encOut ++ encTail s.enc ∧ b.encOut = s.encOut ∧ (applyRst s).encOut = s.encOut) ∧
    (∃ a b bs, exec .decEnd s = .next a ∧ exec .decClr s = .next b ∧
      a.dec = DecUnit.reset ∧ b.dec = DecUnit.reset ∧ (applyRst s).dec = DecUnit.reset ∧
      a.decOut = s.decOut ++ bs ∧ bs.length = tailLength s.tailMode s.dec.flag ∧
      b.decOut = s.decOut ∧ (applyRst s).decOut = s.decOut)

/-! ### The alphabet and padding -/

/-- R52: the ROM agrees with the closed form at every index. -/
def Obligations.AlphaClosedForm : Prop :=
  ∀ i : Sextet, (alpha i).toNat =
    if i.toNat ≤ 25 then 0x41 + i.toNat
    else if i.toNat ≤ 51 then 0x61 + (i.toNat - 26)
    else if i.toNat ≤ 61 then 0x30 + (i.toNat - 52)
    else if i.toNat = 62 then 0x2B
    else 0x2F

/-- R56: INV is the left inverse of ALPHA, and every valid code is the ALPHA of its sextet. -/
def Obligations.InvInvertsAlpha : Prop :=
  (∀ i : Sextet, inv (alpha i) = .valid i) ∧ ∀ (c : Byte) (v : Sextet), inv c = .valid v → alpha v = c

/-- Of the 256 codes 64 are VALID, 1 is PAD and 191 are INVALID, and the invalid ones are exactly those outside `[A-Za-z0-9+/=]` (R54,
R58). -/
def Obligations.InvClassifiesEveryCode : Prop :=
  (∀ c : Byte, inv c = .invalid ↔ inAlphabetOrPad c = false) ∧ (∀ c : Byte, inv c = .pad ↔ c = 0x3D#8) ∧
  ((List.range 256).filter fun n => decide (inv (BitVec.ofNat 8 n) = .invalid)).length = 191

/-- R55: on valid characters INV agrees with the source's range chain, the first test that holds winning. -/
def Obligations.InvAgreesWithRangeChain : Prop :=
  ∀ (c : Byte) (v : Sextet), inv c = .valid v →
    if c.toNat ≤ 0x2F then (v = 62#6 ∧ c = 0x2B#8) ∨ (v = 63#6 ∧ c = 0x2F#8)
    else if c.toNat ≤ 0x39 then v.toNat + 0x30 = c.toNat + 52
    else if c.toNat ≤ 0x5A then v.toNat + 0x41 = c.toNat
    else c.toNat ≤ 0x7A ∧ v.toNat + 0x61 = c.toNat + 26

/-- ALPHA never gives the padding character, and ENC.DATA emits none (R53). -/
def Obligations.NoPadBeforeEnd : Prop :=
  (∀ i : Sextet, alpha i ≠ 0x3D#8) ∧
  ∀ (s : State) (d : Byte), ∃ t cs, exec (.encData d) s = .next t ∧ t.encOut = s.encOut ++ cs ∧ ∀ c ∈ cs, c ≠ 0x3D#8

/-! ### The encoder's commands -/

/-- R60: the first byte of a group, with the source's own expressions for the index and the carry. -/
def Obligations.EncDataFirstByte : Prop :=
  ∀ (s : State) (d : Byte), s.enc.flag = 0 →
    exec (.encData d) s = .next { s with
      enc := { flag := 1, prev := ((d <<< 6) >>> 2).setWidth 6 }
      encOut := s.encOut ++ [alpha ((d >>> 2).setWidth 6)] }

/-- R61: the second byte of a group. -/
def Obligations.EncDataSecondByte : Prop :=
  ∀ (s : State) (d : Byte), s.enc.flag = 1 →
    exec (.encData d) s = .next { s with
      enc := { flag := 2, prev := ((d &&& 0x0F#8) <<< 2).setWidth 6 }
      encOut := s.encOut ++ [alpha (s.enc.prev ||| (d >>> 4).setWidth 6)] }

/-- R62: the third byte of a group emits two characters and clears the carry. -/
def Obligations.EncDataThirdByte : Prop :=
  ∀ (s : State) (d : Byte), s.enc.flag = 2 →
    exec (.encData d) s = .next { s with
      enc := { flag := 0, prev := 0#6 }
      encOut := s.encOut ++ [alpha (s.enc.prev ||| (d >>> 6).setWidth 6), alpha ((d &&& 0x3F#8).setWidth 6)] }

/-- R63: every ENC.DATA advances the counter modulo 3, and it returns to 0 exactly when two characters complete a group. -/
def Obligations.EncDataAdvancesModThree : Prop :=
  ∀ (s : State) (d : Byte), ∃ t, exec (.encData d) s = .next t ∧
    t.enc.flag.val = (s.enc.flag.val + 1) % 3 ∧
    (t.enc.flag = 0 ↔ t.encOut.length = s.encOut.length + 2)

/-- R64: ENC.END emits nothing at 0, else the carry's character and 3 - flag pads, and resets the unit. -/
def Obligations.EncEndFinalizes : Prop :=
  ∀ s : State, exec .encEnd s = .next { s with
    enc := { flag := 0, prev := 0#6 }
    encOut := s.encOut ++
      if s.enc.flag.val = 0 then [] else alpha s.enc.prev :: List.replicate (3 - s.enc.flag.val) 0x3D#8 }

/-- R65: ENC.CLR resets the unit and emits nothing. -/
def Obligations.EncClrDiscards : Prop :=
  ∀ s : State, exec .encClr s = .next { s with enc := { flag := 0, prev := 0#6 } }

/-- R69: an ENC command's next state and output are functions of the encoder's state and the command alone, and it always has a next
state: the tail mode, the decoder and the draws have no part in it. -/
def Obligations.EncoderDependsOnItselfAlone : Prop :=
  ∀ (i : Instr) (s₁ s₂ : State), i.unit = .encoder → s₁.enc = s₂.enc →
    ∃ t₁ t₂ cs, exec i s₁ = .next t₁ ∧ exec i s₂ = .next t₂ ∧ t₁.enc = t₂.enc ∧
      t₁.encOut = s₁.encOut ++ cs ∧ t₂.encOut = s₂.encOut ++ cs ∧ t₁.draws = s₁.draws

/-! ### The decoder's commands -/

/-- R71: while stopped, DEC.DATA changes nothing, whatever the character. -/
def Obligations.DecDataIgnoredWhenStopped : Prop :=
  ∀ (s : State) (d : Byte), s.dec.stop = true → exec (.decData d) s = .next s

/-- R72: `=` sets stop and changes nothing else. -/
def Obligations.DecDataPadStops : Prop :=
  ∀ s : State, s.dec.stop = false →
    exec (.decData 0x3D#8) s = .next { s with dec := { s.dec with stop := true } }

/-- R73: the first character of a group. -/
def Obligations.DecDataFirstCharacter : Prop :=
  ∀ (s : State) (d : Byte) (v : Sextet), s.dec.stop = false → s.dec.flag = 0 → inv d = .valid v →
    exec (.decData d) s = .next { s with dec := { s.dec with flag := 1, buf0 := BitVec.ofNat 8 (v.toNat * 4) } }

/-- R74: the second character of a group. -/
def Obligations.DecDataSecondCharacter : Prop :=
  ∀ (s : State) (d : Byte) (v : Sextet), s.dec.stop = false → s.dec.flag = 1 → inv d = .valid v →
    exec (.decData d) s = .next { s with dec := { s.dec with
      flag := 2
      buf0 := s.dec.buf0 ||| BitVec.ofNat 8 (v.toNat / 16)
      buf1 := BitVec.ofNat 8 (v.toNat * 16) } }

/-- R75: the third character of a group. -/
def Obligations.DecDataThirdCharacter : Prop :=
  ∀ (s : State) (d : Byte) (v : Sextet), s.dec.stop = false → s.dec.flag = 2 → inv d = .valid v →
    exec (.decData d) s = .next { s with dec := { s.dec with
      flag := 3
      buf1 := s.dec.buf1 ||| BitVec.ofNat 8 (v.toNat / 4)
      buf2 := BitVec.ofNat 8 (v.toNat * 64) } }

/-- R76: the fourth character emits three bytes, those of the buffer completed by v if the group is exact and any others if it is tainted,
and clears the buffer and the taint. -/
def Obligations.DecDataFourthCharacter : Prop :=
  ∀ (s : State) (d : Byte) (v : Sextet), s.dec.stop = false → s.dec.flag = 3 → inv d = .valid v →
    ∃ (bs : List Byte) (n : Nat),
      exec (.decData d) s = .next { s with
        dec := { flag := 0, buf0 := 0#8, buf1 := 0#8, buf2 := 0#8, stop := false, taint := false }
        decOut := s.decOut ++ bs
        draws := n } ∧
      bs.length = 3 ∧
      (s.dec.taint = false → n = s.draws ∧ bs = [s.dec.buf0, s.dec.buf1, s.dec.buf2 ||| BitVec.ofNat 8 v.toNat])

/-- The bytes of a tainted group are the free values from the count of draws on, each drawn afresh, whatever they are (log entry 3; R8,
R77): at the fourth character, and at DEC.END. -/
def Obligations.TaintedBytesAreFreshDraws : Prop :=
  ∀ s : State, s.dec.taint = true →
    (∀ (d : Byte) (v : Sextet), s.dec.stop = false → s.dec.flag = 3 → inv d = .valid v →
      ∃ t, exec (.decData d) s = .next t ∧ t.decOut = s.decOut ++ Config.freshBytes s.draws 3 ∧ t.draws = s.draws + 3) ∧
    ∃ t, exec .decEnd s = .next t ∧
      t.decOut = s.decOut ++ Config.freshBytes s.draws (tailLength s.tailMode s.dec.flag) ∧
      t.draws = s.draws + tailLength s.tailMode s.dec.flag

/-- An invalid character acts exactly as some valid character would in the same state with the group tainted; which one is not said
(R77). The one difference is the model's count of draws, one further for the unspecified sextet (log entry 3). At flag 3 both
sides' bytes are drawn, and that they are equal is the model's choice of draws (log entry 3), not R8's. -/
def Obligations.InvalidCharacterActsAsSomeValid : Prop :=
  ∀ (s : State) (d : Byte), s.dec.stop = false → inv d = .invalid →
    ∃ (c : Byte) (v : Sextet), inv c = .valid v ∧
      exec (.decData d) s = exec (.decData c) { s with dec := { s.dec with taint := true }, draws := s.draws + 1 }

/-- The shape of what an invalid character does is exact: the counter advances, stop stays clear, the group is tainted until its bytes
are emitted, and it emits three bytes at flag 3, all of them fresh draws, and nothing before (R77; the draws, log entry 3). -/
def Obligations.InvalidCharacterShape : Prop :=
  ∀ (s : State) (d : Byte), s.dec.stop = false → inv d = .invalid →
    ∃ t, exec (.decData d) s = .next t ∧ sameButDecoder s t ∧
      t.dec.flag.val = (s.dec.flag.val + 1) % 4 ∧ t.dec.stop = false ∧
      (s.dec.flag ≠ 3 → t.dec.taint = true ∧ t.decOut = s.decOut) ∧
      (s.dec.flag = 3 → t.dec = DecUnit.reset ∧ ∃ n, s.draws ≤ n ∧ t.draws = n + 3 ∧
        t.decOut = s.decOut ++ Config.freshBytes n 3)

/-- No output depends on the buffer of a tainted group (R77, I4): two states that differ there alone take each command to two states that
differ there at most, with equal outputs. Where the outputs are drawn bytes (DEC.DATA at flag 3, DEC.END), that they are equal is the
model's choice of draws (log entry 3): both states draw at the same count. R8's fresh draws promise no such equality; what R77
gives is that the number of bytes and what becomes of the units do not depend on that buffer. -/
def Obligations.TaintedBufferNeverShows : Prop :=
  ∀ (i : Instr) (s t : State), sameButTaintedBuffer s t →
    ∃ s' t', exec i s = .next s' ∧ exec i t = .next t' ∧ s'.decOut = t'.decOut ∧ sameButTaintedBuffer s' t'

/-- R78: DEC.END emits n bytes, n being 0 at flag 0 and otherwise flag - 1 or 3 by the tail mode: the first n of the buffer if the group
is exact, any others if it is tainted. It leaves the unit reset. -/
def Obligations.DecEndFinalizes : Prop :=
  ∀ s : State,
    let n := if s.dec.flag.val = 0 then 0 else if s.tailMode = .truncate then s.dec.flag.val - 1 else 3
    ∃ (bs : List Byte) (k : Nat),
      exec .decEnd s = .next { s with
        dec := { flag := 0, buf0 := 0#8, buf1 := 0#8, buf2 := 0#8, stop := false, taint := false }
        decOut := s.decOut ++ bs
        draws := k } ∧
      bs.length = n ∧ (s.dec.taint = false → k = s.draws ∧ bs = [s.dec.buf0, s.dec.buf1, s.dec.buf2].take n)

/-- R79: the TRUNCATE tail of an exact group, at each flag above 0. -/
def Obligations.DecEndTruncateTail : Prop :=
  ∀ s : State, s.tailMode = .truncate → s.dec.taint = false →
    ∃ t, exec .decEnd s = .next t ∧
      (s.dec.flag = 1 → t.decOut = s.decOut) ∧
      (s.dec.flag = 2 → t.decOut = s.decOut ++ [s.dec.buf0]) ∧
      (s.dec.flag = 3 → t.decOut = s.decOut ++ [s.dec.buf0, s.dec.buf1])

/-- R80: the FULL tail of an exact group is the whole buffer at each flag above 0; nothing at flag 0 (R78). -/
def Obligations.DecEndFullTail : Prop :=
  ∀ s : State, s.tailMode = .full → s.dec.taint = false →
    ∃ t, exec .decEnd s = .next t ∧
      (s.dec.flag = 0 → t.decOut = s.decOut) ∧
      (s.dec.flag ≠ 0 → t.decOut = s.decOut ++ [s.dec.buf0, s.dec.buf1, s.dec.buf2])

/-- R81: DEC.CLR resets the unit and emits nothing. -/
def Obligations.DecClrDiscards : Prop :=
  ∀ s : State, exec .decClr s = .next { s with
    dec := { flag := 0, buf0 := 0#8, buf1 := 0#8, buf2 := 0#8, stop := false, taint := false } }

/-- A DEC command's shape (counter, stop, taint and the number of bytes) is a function of the decoder's state, the command and the
tail mode; its bytes and buffer are so too when it draws nothing (R85). -/
def Obligations.DecoderShapeIsDetermined : Prop :=
  ∀ (i : Instr) (s₁ s₂ : State), i.unit = .decoder → s₁.dec = s₂.dec → s₁.tailMode = s₂.tailMode →
    ∃ t₁ t₂ bs₁ bs₂, exec i s₁ = .next t₁ ∧ exec i s₂ = .next t₂ ∧
      t₁.decOut = s₁.decOut ++ bs₁ ∧ t₂.decOut = s₂.decOut ++ bs₂ ∧ bs₁.length = bs₂.length ∧
      t₁.dec.flag = t₂.dec.flag ∧ t₁.dec.stop = t₂.dec.stop ∧ t₁.dec.taint = t₂.dec.taint ∧
      (t₁.draws = s₁.draws → t₁.dec = t₂.dec ∧ bs₁ = bs₂)

/-! ### Both units -/

/-- R86: every command completes in one step, for every operand and in every state. -/
def Obligations.EveryCommandCompletes : Prop :=
  ∀ (i : Instr) (s : State), ∃ t, exec i s = .next t

/-- R42: the U bit of a command's word names its unit, and the command changes nothing outside that unit and its output stream (and,
for the decoder, the model's count of draws). -/
def Obligations.CommandsTouchOneUnit : Prop :=
  ∀ (i : Instr) (s : State), ∃ t, exec i s = .next t ∧
    match i.unit with
    | .encoder => unitField (encode i) = 0#1 ∧ sameButEncoder s t
    | .decoder => unitField (encode i) = 1#1 ∧ sameButDecoder s t

/-- R33: the number of units each command appends. -/
def Obligations.CommandOutputCounts : Prop :=
  ∀ (i : Instr) (s : State), ∃ t cs bs, exec i s = .next t ∧ t.encOut = s.encOut ++ cs ∧ t.decOut = s.decOut ++ bs ∧
    match i with
    | .encData _ => (cs.length = 1 ∨ cs.length = 2) ∧ bs = []
    | .encEnd => (cs.length = 0 ∨ cs.length = 2 ∨ cs.length = 3) ∧ bs = []
    | .decData _ => cs = [] ∧ (bs.length = 0 ∨ bs.length = 3)
    | .decEnd => cs = [] ∧ bs.length ≤ 3
    | .encClr => cs = [] ∧ bs = []
    | .decClr => cs = [] ∧ bs = []

/-- Two commands to different units may be issued in either order, with the same state after both (R36). Where the DEC command draws, that
both orders draw the same bytes is the model's choice of draws (log entry 3). -/
def Obligations.UnitsCommute : Prop :=
  ∀ (i j : Instr) (s : State), i.unit = .encoder → j.unit = .decoder → runInstrs [i, j] s = runInstrs [j, i] s

/-- What a sequence of commands does to each unit and its stream is what its own commands alone do, in their order: derived from R25 (the
units share no state) and R36, which itself speaks only of the order of the same commands. For drawn bytes, and for a buffer
filled from a drawn sextet, that the run without the ENC commands gives the same is the model's choice of draws (log entry 3),
since only DEC commands draw. -/
def Obligations.RunSplitsByUnit : Prop :=
  ∀ (is : List Instr) (s : State), ∃ t e d, runInstrs is s = .next t ∧
    runInstrs (is.filter fun i => i.unit = .encoder) s = .next e ∧ t.enc = e.enc ∧ t.encOut = e.encOut ∧
    runInstrs (is.filter fun i => i.unit = .decoder) s = .next d ∧ t.dec = d.dec ∧ t.decOut = d.decOut

/-! ### Invariants of every step -/

/-- R16: every step keeps the encoder's carry within the bits its position leaves room for. -/
def Obligations.StepKeepsEncCarry : Prop :=
  ∀ s t : State, encCarryOk s.enc = true → step s = .next t → encCarryOk t.enc = true

/-- R19: every step keeps an untainted decoder buffer within the bits its position leaves room for. -/
def Obligations.StepKeepsDecBuffer : Prop :=
  ∀ s t : State, decBufferOk s.dec = true → step s = .next t → decBufferOk t.dec = true

/-- R58: every step keeps ENC_OUT within `[A-Za-z0-9+/=]`. -/
def Obligations.StepKeepsEncOutClosed : Prop :=
  ∀ s t : State, encOutClosed s → step s = .next t → encOutClosed t

/-- The launch state meets the three invariants (R16, R19, R58). -/
def Obligations.ResetMeetsInvariants : Prop :=
  encCarryOk State.reset.enc = true ∧ decBufferOk State.reset.dec = true ∧ encOutClosed State.reset

/-- No step changes the tail mode (R7), and none takes back a unit of either output stream or rewinds the draws (R34, R8). -/
def Obligations.StepOnlyAppends : Prop :=
  ∀ s t : State, step s = .next t →
    t.tailMode = s.tailMode ∧ s.encOut <+: t.encOut ∧ s.decOut <+: t.decOut ∧ s.draws ≤ t.draws

/-! ### Groups and streams -/

/-- R29: three bytes from a group start give the four characters of the 24 bits b0 ++ b1 ++ b2, highest sextet first. -/
def Obligations.EncoderGroupBitOrder : Prop :=
  ∀ (s : State) (b0 b1 b2 : Byte), s.enc.flag = 0 →
    let g : BitVec 24 := b0 ++ b1 ++ b2
    runInstrs (encBytes [b0, b1, b2]) s = .next { s with
      enc := { flag := 0, prev := 0#6 }
      encOut := s.encOut ++
        [alpha (g.extractLsb' 18 6), alpha (g.extractLsb' 12 6), alpha (g.extractLsb' 6 6), alpha (g.extractLsb' 0 6)] }

/-- R30: four valid characters from an exact group start give the three bytes of the 24 bits v0 ++ v1 ++ v2 ++ v3, highest first. -/
def Obligations.DecoderGroupBitOrder : Prop :=
  ∀ (s : State) (c0 c1 c2 c3 : Byte) (v0 v1 v2 v3 : Sextet),
    s.dec.flag = 0 → s.dec.stop = false → s.dec.taint = false →
    inv c0 = .valid v0 → inv c1 = .valid v1 → inv c2 = .valid v2 → inv c3 = .valid v3 →
    let g : BitVec 24 := v0 ++ v1 ++ v2 ++ v3
    runInstrs (decChars [c0, c1, c2, c3]) s = .next { s with
      dec := { s.dec with buf0 := 0#8, buf1 := 0#8, buf2 := 0#8 }
      decOut := s.decOut ++ [g.extractLsb' 16 8, g.extractLsb' 8 8, g.extractLsb' 0 8] }

/-- R67: after k bytes from the encoder's reset state, k + k/3 characters, none a pad, and the counter at k mod 3. -/
def Obligations.EncoderPrefixLaw : Prop :=
  ∀ (s : State) (bs : List Byte), s.enc = EncUnit.reset →
    ∃ t cs, runInstrs (encBytes bs) s = .next t ∧ t.encOut = s.encOut ++ cs ∧
      cs.length = bs.length + bs.length / 3 ∧ (∀ c ∈ cs, c ≠ 0x3D#8) ∧ t.enc.flag.val = bs.length % 3

/-- R66: a stream of n bytes gives 4 * ceil(n/3) characters, of which n + ceil(n/3) are data and the rest pads. -/
def Obligations.EncoderLengthLaw : Prop :=
  ∀ (s : State) (bs : List Byte),
    ∃ t cs, runInstrs (encStream bs) s = .next t ∧ t.encOut = s.encOut ++ cs ∧
      cs.length = 4 * ((bs.length + 2) / 3) ∧
      (cs.filter fun c => c ≠ 0x3D#8).length = bs.length + (bs.length + 2) / 3 ∧
      (cs.filter fun c => c = 0x3D#8).length = if bs.length % 3 = 0 then 0 else 3 - bs.length % 3

/-- R68: the pads stand at the end, 0, 2 or 1 of them as n mod 3 is 0, 1 or 2, and nowhere else. -/
def Obligations.EncoderPadsOnlyAtEnd : Prop :=
  ∀ (s : State) (bs : List Byte),
    ∃ t cs k, runInstrs (encStream bs) s = .next t ∧ t.encOut = s.encOut ++ (cs ++ List.replicate k 0x3D#8) ∧
      (∀ c ∈ cs, c ≠ 0x3D#8) ∧
      (bs.length % 3 = 0 → k = 0) ∧ (bs.length % 3 = 1 → k = 2) ∧ (bs.length % 3 = 2 → k = 1)

/-- R82: a stream with n characters before its first `=` gives 3 * (n/4) bytes and the tail's, by the tail mode; and after k non-padding
characters from the decoder's reset state there are 3 * (k/4) bytes, with the counter at k mod 4. -/
def Obligations.DecoderLengthLaw : Prop :=
  (∀ (s : State) (cs : List Byte),
    let n := (cs.takeWhile fun c => c ≠ 0x3D#8).length
    ∃ t bs, runInstrs (decStream cs) s = .next t ∧ t.decOut = s.decOut ++ bs ∧
      bs.length = match s.tailMode with
        | .truncate => 3 * (n / 4) + (n % 4 - 1)
        | .full => 3 * (n / 4) + if n % 4 = 0 then 0 else 3) ∧
  ∀ (s : State) (cs : List Byte), s.dec = DecUnit.reset → (∀ c ∈ cs, c ≠ 0x3D#8) →
    ∃ t bs, runInstrs (decChars cs) s = .next t ∧ t.decOut = s.decOut ++ bs ∧
      bs.length = 3 * (cs.length / 4) ∧ t.dec.flag.val = cs.length % 4

/-- A stopped decoder takes and ignores any further characters (R71, R101 (b)). -/
def Obligations.StoppedDecoderIgnoresStream : Prop :=
  ∀ (s : State) (cs : List Byte), s.dec.stop = true → runInstrs (decChars cs) s = .next s

/-- R83: what a stream of bytes put on ENC_OUT, fed to the decoder in any state, puts those bytes on DEC_OUT in TRUNCATE mode, and in
FULL mode those bytes and the zero bytes that fill up the last group. -/
def Obligations.EncodeDecodeRoundTrip : Prop :=
  ∀ (s r : State) (bs : List Byte),
    ∃ t cs u, runInstrs (encStream bs) s = .next t ∧ t.encOut = s.encOut ++ cs ∧
      runInstrs (decStream cs) r = .next u ∧
      u.decOut = r.decOut ++ match r.tailMode with
        | .truncate => bs
        | .full => bs ++ List.replicate (if bs.length % 3 = 0 then 0 else 3 - bs.length % 3) 0x00#8

/-! ### The assembler -/

/-- A command printed as a line of R48, with its operand as a number, assembles to that command alone. -/
def Obligations.AssemblerReadsPrintedCommand : Prop :=
  ∀ i : Instr, asmLine (printInstr i) = some [i]
end

