-- ==== Sys2Proof/Laws/State.lean ====
section
/-! SUPPORT. What each named update of the state does to each field, so that no proof unfolds a record update. -/

namespace Sys2Proof.Machine

open Sys2Proof

@[simp] theorem State.setEnc_enc (u : EncUnit) (s : State) : (s.setEnc u).enc = u := rfl
@[simp] theorem State.setEnc_dec (u : EncUnit) (s : State) : (s.setEnc u).dec = s.dec := rfl
@[simp] theorem State.setEnc_encOut (u : EncUnit) (s : State) : (s.setEnc u).encOut = s.encOut := rfl
@[simp] theorem State.setEnc_decOut (u : EncUnit) (s : State) : (s.setEnc u).decOut = s.decOut := rfl
@[simp] theorem State.setEnc_tailMode (u : EncUnit) (s : State) : (s.setEnc u).tailMode = s.tailMode := rfl
@[simp] theorem State.setEnc_port (u : EncUnit) (s : State) : (s.setEnc u).port = s.port := rfl
@[simp] theorem State.setEnc_draws (u : EncUnit) (s : State) : (s.setEnc u).draws = s.draws := rfl

@[simp] theorem State.setDec_enc (u : DecUnit) (s : State) : (s.setDec u).enc = s.enc := rfl
@[simp] theorem State.setDec_dec (u : DecUnit) (s : State) : (s.setDec u).dec = u := rfl
@[simp] theorem State.setDec_encOut (u : DecUnit) (s : State) : (s.setDec u).encOut = s.encOut := rfl
@[simp] theorem State.setDec_decOut (u : DecUnit) (s : State) : (s.setDec u).decOut = s.decOut := rfl
@[simp] theorem State.setDec_tailMode (u : DecUnit) (s : State) : (s.setDec u).tailMode = s.tailMode := rfl
@[simp] theorem State.setDec_port (u : DecUnit) (s : State) : (s.setDec u).port = s.port := rfl
@[simp] theorem State.setDec_draws (u : DecUnit) (s : State) : (s.setDec u).draws = s.draws := rfl

@[simp] theorem emitEnc_enc (cs : List Byte) (s : State) : (emitEnc cs s).enc = s.enc := rfl
@[simp] theorem emitEnc_dec (cs : List Byte) (s : State) : (emitEnc cs s).dec = s.dec := rfl
@[simp] theorem emitEnc_encOut (cs : List Byte) (s : State) : (emitEnc cs s).encOut = s.encOut ++ cs := rfl
@[simp] theorem emitEnc_decOut (cs : List Byte) (s : State) : (emitEnc cs s).decOut = s.decOut := rfl
@[simp] theorem emitEnc_tailMode (cs : List Byte) (s : State) : (emitEnc cs s).tailMode = s.tailMode := rfl
@[simp] theorem emitEnc_port (cs : List Byte) (s : State) : (emitEnc cs s).port = s.port := rfl
@[simp] theorem emitEnc_draws (cs : List Byte) (s : State) : (emitEnc cs s).draws = s.draws := rfl

@[simp] theorem emitDec_enc (bs : List Byte) (s : State) : (emitDec bs s).enc = s.enc := rfl
@[simp] theorem emitDec_dec (bs : List Byte) (s : State) : (emitDec bs s).dec = s.dec := rfl
@[simp] theorem emitDec_encOut (bs : List Byte) (s : State) : (emitDec bs s).encOut = s.encOut := rfl
@[simp] theorem emitDec_decOut (bs : List Byte) (s : State) : (emitDec bs s).decOut = s.decOut ++ bs := rfl
@[simp] theorem emitDec_tailMode (bs : List Byte) (s : State) : (emitDec bs s).tailMode = s.tailMode := rfl
@[simp] theorem emitDec_port (bs : List Byte) (s : State) : (emitDec bs s).port = s.port := rfl
@[simp] theorem emitDec_draws (bs : List Byte) (s : State) : (emitDec bs s).draws = s.draws := rfl

@[simp] theorem resetEnc_enc (s : State) : (resetEnc s).enc = EncUnit.reset := rfl
@[simp] theorem resetEnc_dec (s : State) : (resetEnc s).dec = s.dec := rfl
@[simp] theorem resetEnc_encOut (s : State) : (resetEnc s).encOut = s.encOut := rfl
@[simp] theorem resetEnc_decOut (s : State) : (resetEnc s).decOut = s.decOut := rfl
@[simp] theorem resetEnc_tailMode (s : State) : (resetEnc s).tailMode = s.tailMode := rfl
@[simp] theorem resetEnc_port (s : State) : (resetEnc s).port = s.port := rfl
@[simp] theorem resetEnc_draws (s : State) : (resetEnc s).draws = s.draws := rfl

@[simp] theorem resetDec_enc (s : State) : (resetDec s).enc = s.enc := rfl
@[simp] theorem resetDec_dec (s : State) : (resetDec s).dec = DecUnit.reset := rfl
@[simp] theorem resetDec_encOut (s : State) : (resetDec s).encOut = s.encOut := rfl
@[simp] theorem resetDec_decOut (s : State) : (resetDec s).decOut = s.decOut := rfl
@[simp] theorem resetDec_tailMode (s : State) : (resetDec s).tailMode = s.tailMode := rfl
@[simp] theorem resetDec_port (s : State) : (resetDec s).port = s.port := rfl
@[simp] theorem resetDec_draws (s : State) : (resetDec s).draws = s.draws := rfl

@[simp] theorem applyRst_enc (s : State) : (applyRst s).enc = EncUnit.reset := rfl
@[simp] theorem applyRst_dec (s : State) : (applyRst s).dec = DecUnit.reset := rfl
@[simp] theorem applyRst_encOut (s : State) : (applyRst s).encOut = s.encOut := rfl
@[simp] theorem applyRst_decOut (s : State) : (applyRst s).decOut = s.decOut := rfl
@[simp] theorem applyRst_tailMode (s : State) : (applyRst s).tailMode = s.tailMode := rfl
@[simp] theorem applyRst_port (s : State) : (applyRst s).port = s.port := rfl
@[simp] theorem applyRst_draws (s : State) : (applyRst s).draws = s.draws := rfl

@[simp] theorem drawByte_snd_enc (s : State) : (drawByte s).2.enc = s.enc := rfl
@[simp] theorem drawByte_snd_dec (s : State) : (drawByte s).2.dec = s.dec := rfl
@[simp] theorem drawByte_snd_encOut (s : State) : (drawByte s).2.encOut = s.encOut := rfl
@[simp] theorem drawByte_snd_decOut (s : State) : (drawByte s).2.decOut = s.decOut := rfl
@[simp] theorem drawByte_snd_tailMode (s : State) : (drawByte s).2.tailMode = s.tailMode := rfl
@[simp] theorem drawByte_snd_port (s : State) : (drawByte s).2.port = s.port := rfl
@[simp] theorem drawByte_snd_draws (s : State) : (drawByte s).2.draws = s.draws + 1 := rfl

@[simp] theorem drawSextet_snd_enc (s : State) : (drawSextet s).2.enc = s.enc := rfl
@[simp] theorem drawSextet_snd_dec (s : State) : (drawSextet s).2.dec = s.dec := rfl
@[simp] theorem drawSextet_snd_encOut (s : State) : (drawSextet s).2.encOut = s.encOut := rfl
@[simp] theorem drawSextet_snd_decOut (s : State) : (drawSextet s).2.decOut = s.decOut := rfl
@[simp] theorem drawSextet_snd_tailMode (s : State) : (drawSextet s).2.tailMode = s.tailMode := rfl
@[simp] theorem drawSextet_snd_port (s : State) : (drawSextet s).2.port = s.port := rfl
@[simp] theorem drawSextet_snd_draws (s : State) : (drawSextet s).2.draws = s.draws + 1 := rfl

@[simp] theorem issue_enc (e : PortEvent) (s : State) : (issue e s).enc = s.enc := rfl
@[simp] theorem issue_dec (e : PortEvent) (s : State) : (issue e s).dec = s.dec := rfl
@[simp] theorem issue_encOut (e : PortEvent) (s : State) : (issue e s).encOut = s.encOut := rfl
@[simp] theorem issue_decOut (e : PortEvent) (s : State) : (issue e s).decOut = s.decOut := rfl
@[simp] theorem issue_tailMode (e : PortEvent) (s : State) : (issue e s).tailMode = s.tailMode := rfl
@[simp] theorem issue_port (e : PortEvent) (s : State) : (issue e s).port = s.port ++ [e] := rfl
@[simp] theorem issue_draws (e : PortEvent) (s : State) : (issue e s).draws = s.draws := rfl

@[simp] theorem placeWord_enc (w : Nat) (s : State) : (placeWord w s).enc = s.enc := rfl
@[simp] theorem placeWord_dec (w : Nat) (s : State) : (placeWord w s).dec = s.dec := rfl
@[simp] theorem placeWord_encOut (w : Nat) (s : State) : (placeWord w s).encOut = s.encOut := rfl
@[simp] theorem placeWord_decOut (w : Nat) (s : State) : (placeWord w s).decOut = s.decOut := rfl
@[simp] theorem placeWord_tailMode (w : Nat) (s : State) : (placeWord w s).tailMode = s.tailMode := rfl
@[simp] theorem placeWord_port (w : Nat) (s : State) : (placeWord w s).port = .cmd (BitVec.ofNat 12 w) :: s.port := rfl
@[simp] theorem placeWord_draws (w : Nat) (s : State) : (placeWord w s).draws = s.draws := rfl

@[simp] theorem State.withWords_enc (ws : List CmdWord) (s : State) : (s.withWords ws).enc = s.enc := rfl
@[simp] theorem State.withWords_dec (ws : List CmdWord) (s : State) : (s.withWords ws).dec = s.dec := rfl
@[simp] theorem State.withWords_encOut (ws : List CmdWord) (s : State) : (s.withWords ws).encOut = s.encOut := rfl
@[simp] theorem State.withWords_decOut (ws : List CmdWord) (s : State) : (s.withWords ws).decOut = s.decOut := rfl
@[simp] theorem State.withWords_tailMode (ws : List CmdWord) (s : State) : (s.withWords ws).tailMode = s.tailMode := rfl
@[simp] theorem State.withWords_port (ws : List CmdWord) (s : State) : (s.withWords ws).port = ws.map .cmd := rfl
@[simp] theorem State.withWords_draws (ws : List CmdWord) (s : State) : (s.withWords ws).draws = s.draws := rfl

@[simp] theorem drawByte_fst (s : State) : (drawByte s).1 = Config.freeByte s.draws := rfl
@[simp] theorem drawSextet_fst (s : State) : (drawSextet s).1 = Config.freeSextet s.draws := rfl

@[simp] theorem observe_encOut (s : State) : (observe s).encOut = s.encOut := rfl
@[simp] theorem observe_decOut (s : State) : (observe s).decOut = s.decOut := rfl
@[simp] theorem observe_enc (s : State) : (observe s).enc = s.enc := rfl
@[simp] theorem observe_dec (s : State) : (observe s).dec = s.dec := rfl

end Sys2Proof.Machine
end

