-- ==== Sys2Proof/Laws/Ops.lean ====
section
/-! SUPPORT. One lemma for each shared operation, saying once everything it does. -/

namespace Sys2Proof.Machine

open Sys2Proof

/-! ### The ROM -/

theorem alphabetRom_wf : Memory.wf alphabetRom = true := by decide

/-- Every 6-bit index finds its entry (R26: every index populated). -/
theorem alphabetRom_total : ∀ i : Sextet, Memory.read alphabetRom i.toNat = some (romRead i) := by decide

/-! ### Draws and emission -/

@[simp] theorem freshBytes_zero (n : Nat) : Config.freshBytes n 0 = [] := rfl

@[simp] theorem freshBytes_length (n k : Nat) : (Config.freshBytes n k).length = k := by
  induction k generalizing n with
  | zero => rfl
  | succ k ih => simp [Config.freshBytes, ih]

/-- emitGroup appends one byte for each byte given: that byte, or a draw of its own in a tainted group. -/
theorem emitGroup_eq (t : Bool) (bs : List Byte) (s : State) :
    emitGroup t bs s = { s with
      decOut := s.decOut ++ if t then Config.freshBytes s.draws bs.length else bs
      draws := if t then s.draws + bs.length else s.draws } := by
  induction bs generalizing s with
  | nil => cases t <;> simp [emitGroup]
  | cons b bs ih =>
    cases t <;> simp [emitGroup, emitGroupByte, ih, emitDec, Config.freshBytes, drawByte]
    omega

/-! ### Consuming a character -/

/-- What consuming a character does before the last position: nothing is emitted, the counter advances, the taint is t. -/
theorem decConsume_before_last (v : Sextet) (t : Bool) (s : State) (h : s.dec.flag ≠ 3) :
    ∃ b0 b1 b2, decConsume v t s =
      s.setDec { s.dec with flag := decAdvance s.dec.flag, buf0 := b0, buf1 := b1, buf2 := b2, taint := t } := by
  simp only [decConsume]
  split
  · exact ⟨_, _, _, rfl⟩
  · exact ⟨_, _, _, rfl⟩
  · exact ⟨_, _, _, rfl⟩
  · exact absurd ‹_› h

/-- What consuming a character does at the last position: three bytes are emitted and the group starts again. -/
theorem decConsume_last (v : Sextet) (t : Bool) (s : State) (h : s.dec.flag = 3) :
    decConsume v t s =
      (emitGroup t [s.dec.buf0, s.dec.buf1, decFinish2 s.dec.buf2 v] s).setDec { DecUnit.reset with stop := s.dec.stop } := by
  simp only [decConsume, h]
  rfl

/-! ### The meanings: each completes -/

theorem execEncData_eq (d : Byte) (s : State) :
    execEncData d s = .next { s with
      enc := { flag := encAdvance s.enc.flag, prev := encDataCarry s.enc d }
      encOut := s.encOut ++ encDataChars s.enc d } := rfl

theorem execEncEnd_eq (s : State) :
    execEncEnd s = .next { s with enc := EncUnit.reset, encOut := s.encOut ++ encTail s.enc } := rfl

theorem execDecData_stopped (d : Byte) (s : State) (h : s.dec.stop = true) : execDecData d s = .next s := by
  simp [execDecData, h]

theorem execDecData_valid (d : Byte) (v : Sextet) (s : State) (h : s.dec.stop = false) (hv : inv d = .valid v) :
    execDecData d s = .next (decConsume v s.dec.taint s) := by
  simp [execDecData, h, hv]

theorem execDecData_pad (d : Byte) (s : State) (h : s.dec.stop = false) (hv : inv d = .pad) :
    execDecData d s = .next (s.setDec { s.dec with stop := true }) := by
  simp [execDecData, h, hv]

theorem execDecData_invalid (d : Byte) (s : State) (h : s.dec.stop = false) (hv : inv d = .invalid) :
    execDecData d s = .next (decConsume (drawSextet s).1 true (drawSextet s).2) := by
  simp [execDecData, h, hv]

/-! ### Steps -/

/-- Everything a step that answers a next state can have done. -/
theorem step_cases {s t : State} (h : step s = .next t) :
    (s.port = [] ∧ t = s) ∨
    (∃ rest, s.port = .rst :: rest ∧ t = applyRst { s with port := rest }) ∨
    (∃ w rest i, s.port = .cmd w :: rest ∧ decode w = .ok i ∧ exec i { s with port := rest } = .next t) := by
  unfold step takeEvent at h
  cases hp : s.port with
  | nil =>
    simp only [hp, Host.Outcome.next.injEq] at h
    exact .inl ⟨rfl, h.symm⟩
  | cons e rest =>
    cases e with
    | rst =>
      simp only [hp, Host.Outcome.next.injEq] at h
      exact .inr (.inl ⟨rest, rfl, h.symm⟩)
    | cmd w =>
      cases hd : decode w with
      | ok i =>
        simp only [hp, hd] at h
        exact .inr (.inr ⟨w, rest, i, rfl, hd, h⟩)
      | error r =>
        cases r
        simp only [hp, hd, reduceCtorEq] at h

/-! ### Sequences of commands -/

@[simp] theorem runInstrs_nil (s : State) : runInstrs [] s = .next s := rfl

/-- A command that answers a next state leaves the rest of the sequence to run from it. -/
theorem runInstrs_cons {i : Instr} {is : List Instr} {s t : State} (h : exec i s = .next t) :
    runInstrs (i :: is) s = runInstrs is t := by
  simp [runInstrs, h]

/-- A sequence in two parts runs the second from where the first ends. -/
theorem runInstrs_append {is js : List Instr} {s t : State} (h : runInstrs is s = .next t) :
    runInstrs (is ++ js) s = runInstrs js t := by
  induction is generalizing s with
  | nil => simp_all
  | cons i is ih =>
    simp only [runInstrs, List.cons_append] at h ⊢
    split at h
    · exact ih h
    · cases h
    · cases h

end Sys2Proof.Machine
end

