-- ==== Sys2Proof/Laws/PerInstr.lean ====
section
/-! SUPPORT. Statements about every instruction as syntax, one lemma per constructor. -/

namespace Sys2Proof.Laws

open Sys2Proof

/-- An encoded command is a word the host may issue (30_encoding.md R46, 70_reset_and_hazards.md R99 item 1). -/
def EncodedWordIsLegal.Statement (i : Instr) : Prop := wordWellFormed (encode i) = true

theorem EncodedWordIsLegal.encData (d : Byte) : EncodedWordIsLegal.Statement (.encData d) := by
  revert d
  unfold EncodedWordIsLegal.Statement
  decide

theorem EncodedWordIsLegal.encEnd : EncodedWordIsLegal.Statement .encEnd := by
  unfold EncodedWordIsLegal.Statement
  decide

theorem EncodedWordIsLegal.encClr : EncodedWordIsLegal.Statement .encClr := by
  unfold EncodedWordIsLegal.Statement
  decide

theorem EncodedWordIsLegal.decData (d : Byte) : EncodedWordIsLegal.Statement (.decData d) := by
  revert d
  unfold EncodedWordIsLegal.Statement
  decide

theorem EncodedWordIsLegal.decEnd : EncodedWordIsLegal.Statement .decEnd := by
  unfold EncodedWordIsLegal.Statement
  decide

theorem EncodedWordIsLegal.decClr : EncodedWordIsLegal.Statement .decClr := by
  unfold EncodedWordIsLegal.Statement
  decide

end Sys2Proof.Laws
end

