-- ==== Sys2Proof/Tests/Slice0.lean ====
section
/-! SUPPORT. The model's own tests. Expected results come from spec/95_test_vectors.md (its vector is named at each) or from the rule
named; the witnesses show for each statement with hypotheses a state and operands that meet them all. -/

namespace Sys2Proof.Tests

open Sys2Proof Sys2Proof.Machine Sys2Proof.Safety

/-- The launch state with the encoder at (flag, prev). -/
def encAt (f : Fin 3) (p : Sextet) : State := { State.reset with enc := { flag := f, prev := p } }

/-- The launch state with the decoder at (flag, buf, stop, taint). -/
def decAt (f : Fin 4) (b0 b1 b2 : Byte) (stop taint : Bool) : State :=
  { State.reset with dec := { flag := f, buf0 := b0, buf1 := b1, buf2 := b2, stop := stop, taint := taint } }

/-- The state after one step that takes the word w. -/
def after (s : State) (w : Nat) : Option State := nextState (step (s.withFetchWord 12 w))

/-! ### Decoding, each word written out bit by bit from R50 -/

theorem test_decode_enc_data : decode 0b0_000_01100110#12 = .ok (.encData 0x66#8) := by decide
theorem test_decode_enc_end : decode 0b0_001_00000000#12 = .ok .encEnd := by decide
theorem test_decode_enc_clr : decode 0b0_010_10101011#12 = .ok .encClr := by decide
theorem test_decode_dec_data : decode 0b1_000_00111101#12 = .ok (.decData 0x3D#8) := by decide
theorem test_decode_dec_end : decode 0b1_001_00111101#12 = .ok .decEnd := by decide
theorem test_decode_dec_clr : decode 0b1_010_00000000#12 = .ok .decClr := by decide
theorem test_decode_reserved_enc : decode 0b0_011_00000000#12 = .error (.reserved 0x300#12) := by decide
theorem test_decode_reserved_dec : decode 0b1_111_11111111#12 = .error (.reserved 0xFFF#12) := by decide
theorem test_encode_words : (encode (.encData 0x66#8), encode .encEnd, encode .encClr) = (0x066#12, 0x100#12, 0x200#12) := by decide
theorem test_encode_words_dec : (encode (.decData 0x5A#8), encode .decEnd, encode .decClr) = (0x85A#12, 0x900#12, 0xA00#12) := by decide
theorem test_table_word : decodeTableWord 12 0x8FF = some (.decData 0xFF#8) := by decide
theorem test_table_word_reserved : decodeTableWord 12 0xB00 = none := by decide
theorem test_table_word_too_wide : decodeTableWord 16 0x1066 = none := by decide

/-! ### WellFormed: the check and what it refuses -/

theorem test_wellFormed_last_op : wordWellFormed 0xAFF#12 = true := by decide
theorem test_illFormed_op_011 : wordWellFormed 0x300#12 = false := by decide
theorem test_illFormed_op_111 : wordWellFormed 0xFFF#12 = false := by decide
theorem test_instr_wellFormed : (Instr.encData 0xFF#8).wellFormed = true := by decide

/-! ### One step of each command -/

/-- DV-E-11: the top two bits of d make the third character's low bits. -/
theorem test_encData_third : (after (encAt 2 0#6) 0x0C0).map (·.encOut) = some [0x44#8, 0x41#8] := by decide
/-- DV-E-2. -/
theorem test_encData_second : (after (encAt 1 32#6) 0x06F).map (fun s => (s.encOut, s.enc)) =
    some ([0x6D#8], { flag := 2, prev := 60#6 }) := by decide
/-- DV-E-13. -/
theorem test_encEnd_two_pads : (after (encAt 1 32#6) 0x100).map (·.encOut) = some [0x67#8, 0x3D#8, 0x3D#8] := by decide
/-- DV-E-14, with the unit reset after. -/
theorem test_encEnd_one_pad : (after (encAt 2 60#6) 0x1FF).map (fun s => (s.encOut, s.enc)) =
    some ([0x38#8, 0x3D#8], { flag := 0, prev := 0#6 }) := by decide
/-- DV-E-17. -/
theorem test_encClr_mid_group : (after (encAt 2 60#6) 0x200).map (fun s => (s.encOut, s.enc)) =
    some ([], { flag := 0, prev := 0#6 }) := by decide
/-- DV-D-4. -/
theorem test_decData_fourth : (after (decAt 3 0x66#8 0x6F#8 0x40#8 false false) 0x876).map (·.decOut) =
    some [0x66#8, 0x6F#8, 0x6F#8] := by decide
/-- DV-D-11: the counter, stop and taint, which the spec fixes; the buffer is unspecified. -/
theorem test_decData_invalid : (after (decAt 1 0x64#8 0#8 0#8 false false) 0x821).map
    (fun s => (s.dec.flag, s.dec.stop, s.dec.taint, s.decOut)) = some (2, false, true, []) := by decide
/-- DV-D-16. -/
theorem test_decEnd_truncate : (after (decAt 3 0x66#8 0x6F#8 0#8 true false) 0x900).map (·.decOut) =
    some [0x66#8, 0x6F#8] := by decide
/-- DV-D-20: FULL keeps the unused bits. -/
theorem test_decEnd_full : (after { decAt 2 0x66#8 0x10#8 0#8 true false with tailMode := .full } 0x900).map (·.decOut) =
    some [0x66#8, 0x10#8, 0#8] := by decide
/-- DV-D-23. -/
theorem test_decClr_mid_group : (after (decAt 2 0x66#8 0x60#8 0#8 false true) 0xA00).map (fun s => (s.decOut, s.dec)) =
    some ([], { flag := 0, buf0 := 0#8, buf1 := 0#8, buf2 := 0#8, stop := false, taint := false }) := by decide
/-- DV-R-2: RST discards both partial groups. -/
theorem test_rst : (nextState (step { decAt 2 0x66#8 0#8 0#8 true true with
    enc := { flag := 1, prev := 32#6 }, encOut := [0x5A#8], port := [.rst] })).map (fun s => (s.enc, s.dec, s.encOut)) =
    some (EncUnit.reset, DecUnit.reset, [0x5A#8]) := by decide
/-- DV-C-7, P7: a reserved word is refused. -/
theorem test_reserved_refused : step ((encAt 1 32#6).withFetchWord 12 0x300) = .refused (.reservedOp 0x300#12) := rfl
/-- R94: an idle step changes nothing. -/
theorem test_idle : step (encAt 1 32#6) = .next (encAt 1 32#6) := rfl

/-! ### The alphabet (DV-A-8, DV-A-17, DV-A-30) and the assembler (R48, R49) -/

theorem test_alpha_last : alpha 63#6 = 0x2F#8 := by decide
theorem test_inv_pad : inv 0x3D#8 = .pad := by decide
theorem test_inv_after_z : inv 0x7B#8 = .invalid := by decide
theorem test_asm_quoted : asmLine ['d', 'e', 'c', '.', 'D', 'A', 'T', 'A', ' ', '\x27', '=', '\x27', ';'] = some [.decData 0x3D#8] := by
  decide
theorem test_asm_bytes : asmLine ['E', 'N', 'C', '.', 'B', 'Y', 'T', 'E', 'S', ' ', '0', 'x', '6', '6', ',', '1', '1', '1'] =
    some [.encData 0x66#8, .encData 0x6F#8] := by decide
theorem test_asm_too_big : asmLine ['E', 'N', 'C', '.', 'D', 'A', 'T', 'A', ' ', '2', '5', '6'] = none := by decide

/-! ### Witnesses: a state and operands for the hypotheses of each statement -/

theorem witness_DecodeEncodeAgree : (Instr.decData 0xFF#8).wellFormed = true := by decide
theorem witness_HexFormsDecode : 3 ≤ (0x300#12 : CmdWord).toNat / 256 % 8 ∧ 3 ≤ (0xFFF#12 : CmdWord).toNat / 256 % 8 := by decide
theorem witness_ReservedWordRefused : ({ State.reset with port := [.cmd 0x7FF#12] } : State).port = .cmd 0x7FF#12 :: [] ∧
    3 ≤ ((0x7FF#12 : CmdWord).extractLsb' 8 3).toNat ∧ 3 ≤ ((0x300#12 : CmdWord).extractLsb' 8 3).toNat := by decide
theorem witness_StepRunsDecodedCommand : ({ State.reset with port := [.cmd 0x066#12, .rst] } : State).port = .cmd 0x066#12 :: [.rst] ∧
    decode 0x066#12 = .ok (.encData 0x66#8) ∧ (Instr.encData 0x66#8).wellFormed = true := by decide
theorem witness_PlacedWordRuns : decodeTableWord 12 0xAFF = some .decClr := by decide
theorem witness_StepWithoutCommand : ({ encAt 2 60#6 with port := [.rst] } : State).port = .rst :: [] ∧ (encAt 2 60#6).port = [] := by
  decide
theorem witness_ObedientPortNeverStops : portObeys { State.reset with port := [.cmd 0xAFF#12, .rst] } := by
  simp [portObeys, wordWellFormed]
theorem witness_InvInvertsAlpha : inv 0x2F#8 = .valid 63#6 := by decide
/-- Both ends of each range of the chain. -/
theorem witness_InvAgreesWithRangeChain :
    inv 0x2B#8 = .valid 62#6 ∧ inv 0x2F#8 = .valid 63#6 ∧ inv 0x30#8 = .valid 52#6 ∧ inv 0x39#8 = .valid 61#6 ∧
    inv 0x41#8 = .valid 0#6 ∧ inv 0x5A#8 = .valid 25#6 ∧ inv 0x61#8 = .valid 26#6 ∧ inv 0x7A#8 = .valid 51#6 := by decide
theorem witness_EncDataFirstByte : (encAt 0 63#6).enc.flag = 0 := by decide
theorem witness_EncDataSecondByte : (encAt 1 32#6).enc.flag = 1 := by decide
theorem witness_EncDataThirdByte : (encAt 2 60#6).enc.flag = 2 := by decide
theorem witness_EncoderDependsOnItselfAlone : Instr.encEnd.unit = .encoder ∧
    (encAt 1 32#6).enc = ({ encAt 1 32#6 with tailMode := .full, draws := 5 } : State).enc := by decide
theorem witness_DecDataIgnoredWhenStopped : (decAt 3 1#8 2#8 3#8 true true).dec.stop = true := by decide
theorem witness_DecDataPadStops : (decAt 3 1#8 2#8 3#8 false true).dec.stop = false := by decide
theorem witness_DecDataFirstCharacter : (decAt 0 1#8 2#8 3#8 false true).dec.stop = false ∧
    (decAt 0 1#8 2#8 3#8 false true).dec.flag = 0 ∧ inv 0x5A#8 = .valid 25#6 := by decide
theorem witness_DecDataSecondCharacter : (decAt 1 0x64#8 0#8 0#8 false false).dec.stop = false ∧
    (decAt 1 0x64#8 0#8 0#8 false false).dec.flag = 1 ∧ inv 0x6D#8 = .valid 38#6 := by decide
theorem witness_DecDataThirdCharacter : (decAt 2 0x66#8 0x60#8 0#8 false false).dec.stop = false ∧
    (decAt 2 0x66#8 0x60#8 0#8 false false).dec.flag = 2 ∧ inv 0x39#8 = .valid 61#6 := by decide
theorem witness_DecDataFourthCharacter_exact : (decAt 3 0x66#8 0x6F#8 0x40#8 false false).dec.stop = false ∧
    (decAt 3 0x66#8 0x6F#8 0x40#8 false false).dec.flag = 3 ∧ inv 0x76#8 = .valid 47#6 ∧
    (decAt 3 0x66#8 0x6F#8 0x40#8 false false).dec.taint = false := by decide
theorem witness_TaintedBytesAreFreshDraws : (decAt 3 1#8 2#8 3#8 false true).dec.taint = true ∧
    (decAt 3 1#8 2#8 3#8 false true).dec.stop = false ∧ (decAt 3 1#8 2#8 3#8 false true).dec.flag = 3 ∧
    inv 0x76#8 = .valid 47#6 := by decide
theorem witness_InvalidCharacter_first : (decAt 0 0#8 0#8 0#8 false false).dec.stop = false ∧ inv 0x00#8 = .invalid ∧
    (decAt 0 0#8 0#8 0#8 false false).dec.flag ≠ 3 := by decide
theorem witness_InvalidCharacter_last : (decAt 3 1#8 2#8 0x40#8 false false).dec.stop = false ∧ inv 0xFF#8 = .invalid ∧
    (decAt 3 1#8 2#8 0x40#8 false false).dec.flag = 3 := by decide
theorem witness_TaintedBufferNeverShows : sameButTaintedBuffer (decAt 3 1#8 2#8 3#8 false true) (decAt 3 9#8 8#8 7#8 false true) := by
  simp [sameButTaintedBuffer, decAt]
theorem witness_DecEndTruncateTail : ∀ f : Fin 4, (decAt f 1#8 2#8 3#8 true false).tailMode = .truncate ∧
    (decAt f 1#8 2#8 3#8 true false).dec.taint = false ∧ (decAt f 1#8 2#8 3#8 true false).dec.flag = f := by decide
theorem witness_DecEndFullTail : ∀ f : Fin 4, ({ decAt f 1#8 2#8 3#8 true false with tailMode := .full } : State).tailMode = .full ∧
    ({ decAt f 1#8 2#8 3#8 true false with tailMode := .full } : State).dec.taint = false ∧
    ({ decAt f 1#8 2#8 3#8 true false with tailMode := .full } : State).dec.flag = f := by decide
theorem witness_DecoderShapeIsDetermined : (Instr.decData 0x21#8).unit = .decoder ∧
    (decAt 3 1#8 2#8 3#8 false false).dec = ({ decAt 3 1#8 2#8 3#8 false false with draws := 7 } : State).dec ∧
    (decAt 3 1#8 2#8 3#8 false false).tailMode = ({ decAt 3 1#8 2#8 3#8 false false with draws := 7 } : State).tailMode := by decide
theorem witness_DecoderShapeIsDetermined_no_draw :
    (after (decAt 3 1#8 2#8 3#8 false false) 0x876).map (·.draws) = some (decAt 3 1#8 2#8 3#8 false false).draws := by decide
theorem witness_UnitsCommute : (Instr.encData 0x66#8).unit = .encoder ∧ Instr.decEnd.unit = .decoder := by decide
theorem witness_StepKeepsEncCarry : encCarryOk (encAt 2 60#6).enc = true ∧ step (encAt 2 60#6) = .next (encAt 2 60#6) := ⟨by decide, rfl⟩
theorem witness_StepKeepsEncCarry_command : encCarryOk (encAt 1 48#6).enc = true ∧
    (after (encAt 1 48#6) 0x0FF).map (fun s => encCarryOk s.enc) = some true := by decide
theorem witness_StepKeepsDecBuffer : decBufferOk (decAt 2 0x66#8 0x60#8 0#8 false false).dec = true ∧
    (after (decAt 2 0x66#8 0x60#8 0#8 false false) 0x839).map (fun s => decBufferOk s.dec) = some true := by decide
theorem witness_StepKeepsEncOutClosed : encOutClosed { encAt 1 32#6 with encOut := [0x5A#8, 0x3D#8], port := [.rst] } ∧
    step { encAt 1 32#6 with encOut := [0x5A#8, 0x3D#8], port := [.rst] } = .next { State.reset with encOut := [0x5A#8, 0x3D#8] } :=
  ⟨by unfold encOutClosed; decide, rfl⟩
theorem witness_StepOnlyAppends : step { encAt 1 32#6 with port := [.cmd 0x200#12] } = .next State.reset := rfl
theorem witness_EncoderGroupBitOrder : (encAt 0 0#6).enc.flag = 0 := by decide
theorem witness_DecoderGroupBitOrder : (decAt 0 0#8 0#8 0#8 false false).dec.flag = 0 ∧
    (decAt 0 0#8 0#8 0#8 false false).dec.stop = false ∧ (decAt 0 0#8 0#8 0#8 false false).dec.taint = false ∧
    inv 0x5A#8 = .valid 25#6 ∧ inv 0x6D#8 = .valid 38#6 ∧ inv 0x39#8 = .valid 61#6 ∧ inv 0x76#8 = .valid 47#6 := by decide
theorem witness_EncoderPrefixLaw : State.reset.enc = EncUnit.reset := by decide
theorem witness_DecoderLengthLaw : State.reset.dec = DecUnit.reset ∧ ∀ c ∈ [0x5A#8, 0x21#8], c ≠ 0x3D#8 := by decide
theorem witness_StoppedDecoderIgnoresStream : (decAt 2 0x66#8 0#8 0#8 true false).dec.stop = true := by decide

end Sys2Proof.Tests
end

