-- ==== Sys2Proof/Proofs/Scope.lean ====
section
/-! PROOFS. The statements of spec 00_scope.md: a step runs the command its next word decodes to (R6), and the bytes of a tainted
group are free values (R8). -/

namespace Sys2Proof.Proofs

open Sys2Proof Sys2Proof.Machine

/-! ### Taking a command word from the port -/

/-- A decodable word at the head of the port is taken off it, and nothing else changes before the command runs (R6). -/
theorem takeEvent_cmd {s : State} {w : CmdWord} {rest : List PortEvent} {i : Instr}
    (hp : s.port = .cmd w :: rest) (hd : decode w = .ok i) :
    takeEvent s = .command i { s with port := rest } := by
  simp [takeEvent, hp, hd]

theorem step_cmd {s : State} {w : CmdWord} {rest : List PortEvent} {i : Instr}
    (hp : s.port = .cmd w :: rest) (hd : decode w = .ok i) :
    step s = exec i { s with port := rest } := by
  rw [step, takeEvent_cmd hp hd]

/-- Settles O6: a step runs every decoded command, so the premise that it is well formed is not needed. -/
theorem stepRunsDecodedCommand : Obligations.StepRunsDecodedCommand :=
  fun _ _ _ _ hp hd _ => step_cmd hp hd

/-! ### The bytes of a tainted group -/

theorem exec_decData (d : Byte) (s : State) : exec (.decData d) s = execDecData d s := rfl

theorem exec_decEnd (s : State) : exec .decEnd s = execDecEnd s := rfl

/-- A tainted group emits one free value for each byte, whatever the bytes are, and moves the count past them (R8, R77). -/
theorem emitGroup_tainted (bs : List Byte) (s : State) :
    emitGroup true bs s = { s with
      decOut := s.decOut ++ Config.freshBytes s.draws bs.length
      draws := s.draws + bs.length } := by
  simp [emitGroup_eq]

/-- The tail never asks for more bytes than the buffer holds (R79, R80). -/
theorem tailLength_le (m : TailMode) (f : Fin 4) : tailLength m f ≤ 3 := by
  unfold tailLength
  split
  · omega
  · cases m with
    | truncate => dsimp only; omega
    | full => exact le_rfl

/-- DEC.END emits as many buffer bytes as its tail length says (R78). -/
theorem length_tail (m : TailMode) (f : Fin 4) (b0 b1 b2 : Byte) :
    ([b0, b1, b2].take (tailLength m f)).length = tailLength m f :=
  List.length_take_of_le (tailLength_le m f)

/-- Settles O33: the fourth character emits a group of three bytes and DEC.END one of the tail's length, and a tainted group's bytes
are free values. -/
theorem taintedBytesAreFreshDraws : Obligations.TaintedBytesAreFreshDraws := by
  intro s htaint
  constructor
  · intro d v hstop hflag hv
    rw [exec_decData, execDecData_valid d v s hstop hv, htaint, decConsume_last v true s hflag, emitGroup_tainted]
    exact ⟨_, rfl, rfl, rfl⟩
  · rw [exec_decEnd, execDecEnd, htaint, emitGroup_tainted, length_tail]
    exact ⟨_, rfl, rfl, rfl⟩

end Sys2Proof.Proofs
end

