-- ==== Sys2Proof/Proofs/State.lean ====
section
/-! PROOFS. The statements of spec 10_state.md: the reset values (R13), the invariants of the two units (R16, R19), and that the units
share no state (R25), so that a run splits into the runs of each unit's own commands (R36). -/

namespace Sys2Proof.Proofs

open Sys2Proof Sys2Proof.Machine Sys2Proof.Safety

/-! ### Agreement outside one unit -/

/-- The state with the encoder's side replaced: the unit and its stream. -/
def withEncSide (u : EncUnit) (cs : List Byte) (s : State) : State := { s with enc := u, encOut := cs }

/-- The state with the decoder's side replaced: the unit, its stream and the count of draws. -/
def withDecSide (u : DecUnit) (bs : List Byte) (n : Nat) (s : State) : State :=
  { s with dec := u, decOut := bs, draws := n }

@[simp] theorem withEncSide_dec (u : EncUnit) (cs : List Byte) (s : State) : (withEncSide u cs s).dec = s.dec := rfl

theorem sameButEncoder_iff_withEncSide {s t : State} : sameButEncoder s t ↔ ∃ u cs, t = withEncSide u cs s :=
  ⟨fun h => ⟨t.enc, t.encOut, h⟩, by rintro ⟨u, cs, rfl⟩; rfl⟩

theorem sameButDecoder_iff_withDecSide {s t : State} : sameButDecoder s t ↔ ∃ u bs n, t = withDecSide u bs n s :=
  ⟨fun h => ⟨t.dec, t.decOut, t.draws, h⟩, by rintro ⟨u, bs, n, rfl⟩; rfl⟩

theorem sameButEncoder_iff {s t : State} :
    sameButEncoder s t ↔ t.dec = s.dec ∧ t.decOut = s.decOut ∧ t.tailMode = s.tailMode ∧ t.port = s.port ∧ t.draws = s.draws := by
  cases s; cases t; simp [sameButEncoder]

theorem sameButDecoder_iff {s t : State} :
    sameButDecoder s t ↔ t.enc = s.enc ∧ t.encOut = s.encOut ∧ t.tailMode = s.tailMode ∧ t.port = s.port := by
  cases s; cases t; simp [sameButDecoder]

theorem sameButEncoder_refl (s : State) : sameButEncoder s s := rfl

theorem sameButDecoder_refl (s : State) : sameButDecoder s s := rfl

theorem sameButEncoder_dec {s t : State} (h : sameButEncoder s t) : t.dec = s.dec := (sameButEncoder_iff.mp h).1

theorem sameButDecoder_enc {s t : State} (h : sameButDecoder s t) : t.enc = s.enc := (sameButDecoder_iff.mp h).1

/-- Two states that agree with a third outside the encoder agree with each other there. -/
theorem sameButEncoder_of_common {r s t : State} (hs : sameButEncoder r s) (ht : sameButEncoder r t) : sameButEncoder s t := by
  obtain ⟨u, cs, rfl⟩ := sameButEncoder_iff_withEncSide.mp hs
  exact ht

/-- Two states that agree with a third outside the decoder agree with each other there. -/
theorem sameButDecoder_of_common {r s t : State} (hs : sameButDecoder r s) (ht : sameButDecoder r t) : sameButDecoder s t := by
  obtain ⟨u, bs, n, rfl⟩ := sameButDecoder_iff_withDecSide.mp hs
  exact ht

/-! ### What DEC.DATA can do -/

/-- The four ways DEC.DATA completes (R71, R72, R73 to R76, R77). -/
theorem execDecData_cases (d : Byte) (s : State) :
    (s.dec.stop = true ∧ execDecData d s = .next s) ∨
    (s.dec.stop = false ∧ inv d = .pad ∧ execDecData d s = .next (s.setDec { s.dec with stop := true })) ∨
    (∃ v, s.dec.stop = false ∧ inv d = .valid v ∧ execDecData d s = .next (decConsume v s.dec.taint s)) ∨
    (s.dec.stop = false ∧ inv d = .invalid ∧
      execDecData d s = .next (decConsume (drawSextet s).1 true (drawSextet s).2)) := by
  cases hs : s.dec.stop with
  | true => exact .inl ⟨rfl, execDecData_stopped d s hs⟩
  | false =>
    cases hd : inv d with
    | pad => exact .inr (.inl ⟨rfl, rfl, execDecData_pad d s hs hd⟩)
    | valid v => exact .inr (.inr (.inl ⟨v, rfl, rfl, execDecData_valid d v s hs hd⟩))
    | invalid => exact .inr (.inr (.inr ⟨rfl, rfl, execDecData_invalid d s hs hd⟩))

theorem sameButDecoder_decConsume (v : Sextet) (taint : Bool) (s : State) : sameButDecoder s (decConsume v taint s) := by
  by_cases hf : s.dec.flag = 3
  · rw [decConsume_last v taint s hf, emitGroup_eq]
    rfl
  · obtain ⟨b0, b1, b2, h⟩ := decConsume_before_last v taint s hf
    rw [h]
    rfl

/-! ### The commands of each unit -/

theorem encoder_command {i : Instr} (h : i.unit = .encoder) : (∃ d, i = .encData d) ∨ i = .encEnd ∨ i = .encClr := by
  cases i <;> simp_all [Instr.unit]

theorem decoder_command {i : Instr} (h : i.unit = .decoder) : (∃ d, i = .decData d) ∨ i = .decEnd ∨ i = .decClr := by
  cases i <;> simp_all [Instr.unit]

theorem unit_eq_decoder_of_ne {i : Instr} (h : i.unit ≠ .encoder) : i.unit = .decoder := by
  cases hu : i.unit with
  | encoder => exact absurd hu h
  | decoder => rfl

theorem unit_eq_encoder_of_ne {i : Instr} (h : i.unit ≠ .decoder) : i.unit = .encoder := by
  cases hu : i.unit with
  | encoder => rfl
  | decoder => exact absurd hu h

/-! ### A command completes, leaves the other unit alone, and does not read it -/

/-- An ENC command completes and changes the encoder and its stream alone (R25, R42). -/
theorem exec_encoder_frame {i : Instr} (hi : i.unit = .encoder) (s : State) :
    ∃ t, exec i s = .next t ∧ sameButEncoder s t := by
  obtain ⟨d, rfl⟩ | rfl | rfl := encoder_command hi
  · exact ⟨_, rfl, rfl⟩
  · exact ⟨_, rfl, rfl⟩
  · exact ⟨_, rfl, rfl⟩

theorem execDecData_frame (d : Byte) (s : State) : ∃ t, execDecData d s = .next t ∧ sameButDecoder s t := by
  obtain ⟨-, h⟩ | ⟨-, -, h⟩ | ⟨v, -, -, h⟩ | ⟨-, -, h⟩ := execDecData_cases d s
  · exact ⟨_, h, rfl⟩
  · exact ⟨_, h, rfl⟩
  · exact ⟨_, h, sameButDecoder_decConsume v _ s⟩
  · exact ⟨_, h, sameButDecoder_decConsume _ true (drawSextet s).2⟩

/-- DEC.END emits the tail's bytes, drawn in a tainted group, and resets the decoder (R78). -/
theorem execDecEnd_eq (s : State) :
    execDecEnd s = .next { s with
      dec := DecUnit.reset
      decOut := s.decOut ++
        if s.dec.taint then Config.freshBytes s.draws (tailLength s.tailMode s.dec.flag)
        else [s.dec.buf0, s.dec.buf1, s.dec.buf2].take (tailLength s.tailMode s.dec.flag)
      draws := if s.dec.taint then s.draws + tailLength s.tailMode s.dec.flag else s.draws } := by
  rw [execDecEnd, emitGroup_eq, length_tail]
  rfl

/-- A DEC command completes and changes the decoder, its stream and the count of draws alone (R25, R42). -/
theorem exec_decoder_frame {i : Instr} (hi : i.unit = .decoder) (s : State) :
    ∃ t, exec i s = .next t ∧ sameButDecoder s t := by
  obtain ⟨d, rfl⟩ | rfl | rfl := decoder_command hi
  · exact execDecData_frame d s
  · exact ⟨_, execDecEnd_eq s, rfl⟩
  · exact ⟨_, rfl, rfl⟩

/-- An ENC command takes states that agree outside the decoder to such states (R25, R69). -/
theorem exec_encoder_congr {i : Instr} (hi : i.unit = .encoder) {s t : State} (h : sameButDecoder s t) :
    ∃ s' t', exec i s = .next s' ∧ exec i t = .next t' ∧ sameButDecoder s' t' := by
  obtain ⟨u, bs, n, rfl⟩ := sameButDecoder_iff_withDecSide.mp h
  obtain ⟨d, rfl⟩ | rfl | rfl := encoder_command hi
  · exact ⟨_, _, rfl, rfl, rfl⟩
  · exact ⟨_, _, rfl, rfl, rfl⟩
  · exact ⟨_, _, rfl, rfl, rfl⟩

theorem emitGroup_withEncSide (u : EncUnit) (cs : List Byte) (taint : Bool) (bs : List Byte) (s : State) :
    emitGroup taint bs (withEncSide u cs s) = withEncSide u cs (emitGroup taint bs s) := by
  rw [emitGroup_eq, emitGroup_eq]
  rfl

theorem decConsume_withEncSide (u : EncUnit) (cs : List Byte) (v : Sextet) (taint : Bool) (s : State) :
    decConsume v taint (withEncSide u cs s) = withEncSide u cs (decConsume v taint s) := by
  simp only [decConsume, withEncSide_dec, emitGroup_withEncSide]
  split <;> rfl

theorem execDecData_withEncSide (u : EncUnit) (cs : List Byte) (d : Byte) (s : State) :
    ∃ t, execDecData d s = .next t ∧ execDecData d (withEncSide u cs s) = .next (withEncSide u cs t) := by
  obtain ⟨hs, h⟩ | ⟨hs, hd, h⟩ | ⟨v, hs, hd, h⟩ | ⟨hs, hd, h⟩ := execDecData_cases d s
  · exact ⟨_, h, execDecData_stopped d _ hs⟩
  · exact ⟨_, h, execDecData_pad d _ hs hd⟩
  · refine ⟨_, h, ?_⟩
    rw [execDecData_valid d v (withEncSide u cs s) hs hd, decConsume_withEncSide]
    rfl
  · refine ⟨_, h, ?_⟩
    rw [execDecData_invalid d (withEncSide u cs s) hs hd, ← decConsume_withEncSide]
    rfl

/-- A DEC command takes states that agree outside the encoder to such states (R25, R85); they draw at the same count (log entry 3). -/
theorem exec_decoder_congr {i : Instr} (hi : i.unit = .decoder) {s t : State} (h : sameButEncoder s t) :
    ∃ s' t', exec i s = .next s' ∧ exec i t = .next t' ∧ sameButEncoder s' t' := by
  obtain ⟨u, cs, rfl⟩ := sameButEncoder_iff_withEncSide.mp h
  obtain ⟨d, rfl⟩ | rfl | rfl := decoder_command hi
  · obtain ⟨t, hs, ht⟩ := execDecData_withEncSide u cs d s
    exact ⟨_, _, hs, ht, rfl⟩
  · exact ⟨_, _, execDecEnd_eq s, execDecEnd_eq (withEncSide u cs s), rfl⟩
  · exact ⟨_, _, rfl, rfl, rfl⟩

/-! ### Invariants of every step -/

/-- What RST and every command keep, and the port has no part in, every step keeps. -/
theorem step_keeps {P : State → Prop} (hport : ∀ s rest, P s → P { s with port := rest })
    (hrst : ∀ s, P s → P (applyRst s)) (hexec : ∀ i s t, P s → exec i s = .next t → P t)
    {s t : State} (hs : P s) (h : step s = .next t) : P t := by
  obtain ⟨-, rfl⟩ | ⟨rest, -, rfl⟩ | ⟨w, rest, i, -, -, hi⟩ := step_cases h
  · exact hs
  · exact hrst _ (hport s rest hs)
  · exact hexec i _ t (hport s rest hs) hi

/-- A DEC command leaves the encoder unit as it is. -/
theorem exec_decoder_enc {i : Instr} (hi : i.unit = .decoder) {s t : State} (h : exec i s = .next t) : t.enc = s.enc := by
  obtain ⟨t', ht', hframe⟩ := exec_decoder_frame hi s
  cases h.symm.trans ht'
  exact sameButDecoder_enc hframe

/-- An ENC command leaves the decoder unit as it is. -/
theorem exec_encoder_dec {i : Instr} (hi : i.unit = .encoder) {s t : State} (h : exec i s = .next t) : t.dec = s.dec := by
  obtain ⟨t', ht', hframe⟩ := exec_encoder_frame hi s
  cases h.symm.trans ht'
  exact sameButEncoder_dec hframe

/-! ### The encoder's carry -/

theorem encCarryOk_reset : encCarryOk EncUnit.reset = true := rfl

/-- The carry after the first byte has its low four bits clear (R60). -/
theorem encCarry0_low (d : Byte) : (encCarry0 d).extractLsb' 0 4 = 0#4 :=
  BitVec.extractLsb'_append_eq_right

/-- The carry after the second byte has its low two bits clear (R61). -/
theorem encCarry1_low (d : Byte) : (encCarry1 d).extractLsb' 0 2 = 0#2 :=
  BitVec.extractLsb'_append_eq_right

/-- The carry ENC.DATA leaves fits the position it leaves, whatever carry it found (R60 to R63). -/
theorem encCarryOk_encData (u : EncUnit) (d : Byte) :
    encCarryOk { flag := encAdvance u.flag, prev := encDataCarry u d } = true := by
  obtain ⟨f, p⟩ := u
  match f with
  | 0 => exact beq_iff_eq.mpr (encCarry0_low d)
  | 1 => exact beq_iff_eq.mpr (encCarry1_low d)
  | 2 => rfl

theorem exec_keeps_encCarry {i : Instr} {s t : State} (hs : encCarryOk s.enc = true) (h : exec i s = .next t) :
    encCarryOk t.enc = true := by
  cases hi : i.unit with
  | encoder =>
    obtain ⟨d, rfl⟩ | rfl | rfl := encoder_command hi <;> cases h
    · exact encCarryOk_encData s.enc d
    · exact encCarryOk_reset
    · exact encCarryOk_reset
  | decoder => rwa [exec_decoder_enc hi h]

/-- Settles O47: ENC.DATA leaves a carry that fits its new position, END, CLR and RST leave the reset state, and no DEC command
touches the encoder. -/
theorem stepKeepsEncCarry : Obligations.StepKeepsEncCarry := fun _ _ =>
  step_keeps (P := fun s => encCarryOk s.enc = true) (fun _ _ hs => hs) (fun _ _ => encCarryOk_reset)
    fun _ _ _ => exec_keeps_encCarry

/-! ### The decoder's buffer -/

theorem decBufferOk_reset : decBufferOk DecUnit.reset = true := rfl

theorem decBufferOk_of_clean {u : DecUnit} (h : decBufferClean u = true) : decBufferOk u = true := by
  simp [decBufferOk, h]

theorem decBufferClean_of_ok {u : DecUnit} (h : decBufferOk u = true) (ht : u.taint = false) : decBufferClean u = true := by
  simpa [decBufferOk, ht] using h

/-- A left shift clears the bits it shifts in. -/
theorem extractLsb'_shiftLeft_low {w : Nat} (x : BitVec w) (k : Nat) : (x <<< k).extractLsb' 0 k = 0#k := by
  ext i hi
  simp [hi]

/-- A first byte started has its low two bits clear (R73). -/
theorem decStart0_low (v : Sextet) : (decStart0 v).extractLsb' 0 2 = 0#2 := extractLsb'_shiftLeft_low _ 2

/-- A second byte started has its low four bits clear (R74). -/
theorem decStart1_low (v : Sextet) : (decStart1 v).extractLsb' 0 4 = 0#4 := extractLsb'_shiftLeft_low _ 4

/-- A third byte started has its low six bits clear (R75). -/
theorem decStart2_low (v : Sextet) : (decStart2 v).extractLsb' 0 6 = 0#6 := extractLsb'_shiftLeft_low _ 6

/-- Consuming a character takes a clean buffer to a clean one: the byte it starts is clean, and those after it are still 0
(R73 to R76). -/
theorem decBufferClean_decConsume (v : Sextet) (taint : Bool) {s : State} (hs : decBufferClean s.dec = true) :
    decBufferClean (decConsume v taint s).dec = true := by
  match hf : s.dec.flag with
  | 0 =>
    simp only [decBufferClean, hf, Bool.and_eq_true, beq_iff_eq] at hs
    obtain ⟨⟨-, h1⟩, h2⟩ := hs
    simp [decConsume, hf, decAdvance, decBufferClean, decStart0_low, h1, h2]
  | 1 =>
    simp only [decBufferClean, hf, Bool.and_eq_true, beq_iff_eq] at hs
    obtain ⟨-, h2⟩ := hs
    simp [decConsume, hf, decAdvance, decBufferClean, decStart1_low, h2]
  | 2 => simp [decConsume, hf, decAdvance, decBufferClean, decStart2_low]
  | 3 =>
    rw [decConsume_last v taint s hf]
    rfl

/-- Consuming a character in a tainted group leaves it tainted, or emits it and leaves the buffer cleared (R76, R77). -/
theorem decBufferOk_decConsume_tainted (v : Sextet) (s : State) : decBufferOk (decConsume v true s).dec = true := by
  by_cases hf : s.dec.flag = 3
  · rw [decConsume_last v true s hf]
    rfl
  · obtain ⟨b0, b1, b2, h⟩ := decConsume_before_last v true s hf
    rw [h]
    rfl

theorem decBufferOk_decConsume (v : Sextet) {s : State} (hs : decBufferOk s.dec = true) :
    decBufferOk (decConsume v s.dec.taint s).dec = true := by
  cases ht : s.dec.taint with
  | true => exact decBufferOk_decConsume_tainted v s
  | false => exact decBufferOk_of_clean (decBufferClean_decConsume v false (decBufferClean_of_ok hs ht))

theorem execDecData_keeps_decBuffer {d : Byte} {s t : State} (hs : decBufferOk s.dec = true)
    (h : execDecData d s = .next t) : decBufferOk t.dec = true := by
  obtain ⟨-, h'⟩ | ⟨-, -, h'⟩ | ⟨v, -, -, h'⟩ | ⟨-, -, h'⟩ := execDecData_cases d s <;> cases h.symm.trans h'
  · exact hs
  · exact hs
  · exact decBufferOk_decConsume v hs
  · exact decBufferOk_decConsume_tainted _ _

theorem exec_keeps_decBuffer {i : Instr} {s t : State} (hs : decBufferOk s.dec = true) (h : exec i s = .next t) :
    decBufferOk t.dec = true := by
  cases hi : i.unit with
  | encoder => rwa [exec_encoder_dec hi h]
  | decoder =>
    obtain ⟨d, rfl⟩ | rfl | rfl := decoder_command hi
    · exact execDecData_keeps_decBuffer hs h
    · cases h
      exact decBufferOk_reset
    · cases h
      exact decBufferOk_reset

/-- Settles O48: DEC.DATA taints the group or keeps a clean buffer clean, END, CLR and RST leave the reset state, and no ENC command
touches the decoder. -/
theorem stepKeepsDecBuffer : Obligations.StepKeepsDecBuffer := fun _ _ =>
  step_keeps (P := fun s => decBufferOk s.dec = true) (fun _ _ hs => hs) (fun _ _ => decBufferOk_reset)
    fun _ _ _ => exec_keeps_decBuffer

/-! ### A run splits by unit -/

/-- A run and the run of its chosen commands alone end in related states, if a chosen command keeps the relation when both runs take it
and any other command keeps it when only the whole run does. -/
theorem runInstrs_filter {R : State → State → Prop} {p : Instr → Bool}
    (hboth : ∀ i s t, p i = true → R s t → ∃ s' t', exec i s = .next s' ∧ exec i t = .next t' ∧ R s' t')
    (hskip : ∀ i s t, p i = false → R s t → ∃ s', exec i s = .next s' ∧ R s' t)
    (is : List Instr) {s t : State} (h : R s t) :
    ∃ s' t', runInstrs is s = .next s' ∧ runInstrs (is.filter p) t = .next t' ∧ R s' t' := by
  induction is generalizing s t with
  | nil => exact ⟨s, t, rfl, rfl, h⟩
  | cons i is ih =>
    cases hp : p i with
    | true =>
      obtain ⟨s', t', hs, ht, h'⟩ := hboth i s t hp h
      rw [List.filter_cons_of_pos hp, runInstrs_cons hs, runInstrs_cons ht]
      exact ih h'
    | false =>
      obtain ⟨s', hs, h'⟩ := hskip i s t hp h
      rw [List.filter_cons_of_neg (by simp [hp]), runInstrs_cons hs]
      exact ih h'

/-- A run ends as the run of its ENC commands alone does, outside the decoder's side. -/
theorem runInstrs_filter_encoder (is : List Instr) (s : State) :
    ∃ t e, runInstrs is s = .next t ∧ runInstrs (is.filter fun i => i.unit = .encoder) s = .next e ∧ sameButDecoder t e := by
  refine runInstrs_filter (fun i s t hp h => exec_encoder_congr (of_decide_eq_true hp) h) (fun i s t hp h => ?_) is
    (sameButDecoder_refl s)
  obtain ⟨s', hs, hframe⟩ := exec_decoder_frame (unit_eq_decoder_of_ne (of_decide_eq_false hp)) s
  exact ⟨s', hs, sameButDecoder_of_common hframe h⟩

/-- A run ends as the run of its DEC commands alone does, outside the encoder's side. -/
theorem runInstrs_filter_decoder (is : List Instr) (s : State) :
    ∃ t d, runInstrs is s = .next t ∧ runInstrs (is.filter fun i => i.unit = .decoder) s = .next d ∧ sameButEncoder t d := by
  refine runInstrs_filter (fun i s t hp h => exec_decoder_congr (of_decide_eq_true hp) h) (fun i s t hp h => ?_) is
    (sameButEncoder_refl s)
  obtain ⟨s', hs, hframe⟩ := exec_encoder_frame (unit_eq_encoder_of_ne (of_decide_eq_false hp)) s
  exact ⟨s', hs, sameButEncoder_of_common hframe h⟩

/-- Settles O46: the whole run agrees with the ENC commands' run on the encoder's side, and with the DEC commands' run on the
decoder's. -/
theorem runSplitsByUnit : Obligations.RunSplitsByUnit := by
  intro is s
  obtain ⟨t, e, ht, he, hte⟩ := runInstrs_filter_encoder is s
  obtain ⟨t', d, ht', hd, htd⟩ := runInstrs_filter_decoder is s
  cases ht.symm.trans ht'
  obtain ⟨henc, hencOut, -⟩ := sameButDecoder_iff.mp hte
  obtain ⟨hdec, hdecOut, -⟩ := sameButEncoder_iff.mp htd
  exact ⟨t, e, d, ht, he, henc.symm, hencOut.symm, hd, hdec.symm, hdecOut.symm⟩

/-! ### Reset -/

/-- Settles O12: each element of the launch state is read off its definition. -/
theorem resetStateValues : Obligations.ResetStateValues :=
  ⟨rfl, rfl, rfl, rfl, rfl, rfl, rfl, rfl, rfl, rfl, rfl⟩

end Sys2Proof.Proofs
end

