-- ==== Sys2Proof/Proofs/Memory.lean ====
section
/-! PROOFS. The statements of spec 20_memory.md: the bit order of a group (R29, R30), what a command appends (R33, R34), and the order of
commands within a unit and between the units (R35, R36). -/

namespace Sys2Proof.Proofs

open Sys2Proof Sys2Proof.Machine Sys2Proof.Safety

/-! ### The effect of a command: what it appends, whatever stands on the port -/

/-- The state with other events issued. -/
def withPort (p : List PortEvent) (s : State) : State := { s with port := p }

@[simp] theorem withPort_dec (p : List PortEvent) (s : State) : (withPort p s).dec = s.dec := rfl

/-- An ENC command appends to ENC_OUT, and does not read the port. -/
theorem exec_encoder_effect {i : Instr} (hi : i.unit = .encoder) (s : State) :
    ∃ u cs, ∀ p, exec i (withPort p s) = .next (withPort p (withEncSide u (s.encOut ++ cs) s)) := by
  obtain ⟨d, rfl⟩ | rfl | rfl := encoder_command hi
  · exact ⟨{ flag := encAdvance s.enc.flag, prev := encDataCarry s.enc d }, encDataChars s.enc d, fun _ => rfl⟩
  · exact ⟨EncUnit.reset, encTail s.enc, fun _ => rfl⟩
  · exact ⟨EncUnit.reset, [], fun _ => by rw [List.append_nil]; rfl⟩

/-- Consuming a character appends a whole group or nothing (R73 to R76), and does not read the port. -/
theorem decConsume_effect (v : Sextet) (taint : Bool) (s : State) :
    ∃ u bs k, (bs.length = 0 ∨ bs.length = 3) ∧
      ∀ p, decConsume v taint (withPort p s) = withPort p (withDecSide u (s.decOut ++ bs) (s.draws + k) s) := by
  match hf : s.dec.flag with
  | 0 | 1 | 2 => exact ⟨_, [], 0, .inl rfl, fun _ => by simp only [decConsume, withPort_dec, hf, List.append_nil]; rfl⟩
  | 3 =>
    cases taint with
    | false =>
      refine ⟨{ DecUnit.reset with stop := s.dec.stop }, [s.dec.buf0, s.dec.buf1, decFinish2 s.dec.buf2 v], 0, .inr rfl,
        fun p => ?_⟩
      rw [decConsume_last v false (withPort p s) hf, emitGroup_eq]
      rfl
    | true =>
      refine ⟨{ DecUnit.reset with stop := s.dec.stop }, Config.freshBytes s.draws 3, 3, .inr rfl, fun p => ?_⟩
      rw [decConsume_last v true (withPort p s) hf, emitGroup_eq]
      rfl

/-- DEC.DATA appends three bytes or none (R33), and does not read the port. -/
theorem execDecData_effect (d : Byte) (s : State) :
    ∃ u bs k, (bs.length = 0 ∨ bs.length = 3) ∧
      ∀ p, execDecData d (withPort p s) = .next (withPort p (withDecSide u (s.decOut ++ bs) (s.draws + k) s)) := by
  obtain ⟨hs, -⟩ | ⟨hs, hd, -⟩ | ⟨v, hs, hd, -⟩ | ⟨hs, hd, -⟩ := execDecData_cases d s
  · exact ⟨s.dec, [], 0, .inl rfl, fun p => by rw [execDecData_stopped d (withPort p s) hs, List.append_nil]; rfl⟩
  · refine ⟨{ s.dec with stop := true }, [], 0, .inl rfl, fun p => ?_⟩
    rw [execDecData_pad d (withPort p s) hs hd, List.append_nil]
    rfl
  · obtain ⟨u, bs, k, hlen, h⟩ := decConsume_effect v s.dec.taint s
    exact ⟨u, bs, k, hlen, fun p => (execDecData_valid d v (withPort p s) hs hd).trans (congrArg _ (h p))⟩
  · obtain ⟨u, bs, k, hlen, h⟩ := decConsume_effect (drawSextet s).1 true (drawSextet s).2
    refine ⟨u, bs, 1 + k, hlen, fun p => ?_⟩
    rw [execDecData_invalid d (withPort p s) hs hd, ← Nat.add_assoc]
    exact congrArg _ (h p)

/-- A DEC command appends to DEC_OUT, moves the count of draws on, and does not read the port. -/
theorem exec_decoder_effect {i : Instr} (hi : i.unit = .decoder) (s : State) :
    ∃ u bs k, ∀ p, exec i (withPort p s) = .next (withPort p (withDecSide u (s.decOut ++ bs) (s.draws + k) s)) := by
  obtain ⟨d, rfl⟩ | rfl | rfl := decoder_command hi
  · obtain ⟨u, bs, k, -, h⟩ := execDecData_effect d s
    exact ⟨u, bs, k, h⟩
  · let n := tailLength s.tailMode s.dec.flag
    refine ⟨DecUnit.reset, if s.dec.taint then Config.freshBytes s.draws n else [s.dec.buf0, s.dec.buf1, s.dec.buf2].take n,
      if s.dec.taint then n else 0, fun p => ?_⟩
    rw [exec_decEnd, add_ite]
    exact execDecEnd_eq (withPort p s)
  · exact ⟨DecUnit.reset, [], 0, fun _ => by rw [List.append_nil]; rfl⟩

/-- Every command completes, with the same effect whatever stands on the port. -/
theorem exec_withPort (i : Instr) (s : State) : ∃ t, ∀ p, exec i (withPort p s) = .next (withPort p t) := by
  cases hi : i.unit with
  | encoder =>
    obtain ⟨u, cs, h⟩ := exec_encoder_effect hi s
    exact ⟨_, h⟩
  | decoder =>
    obtain ⟨u, bs, k, h⟩ := exec_decoder_effect hi s
    exact ⟨_, h⟩

/-! ### The port's run is the fold of its commands -/

theorem unitField_wordOf (u : BitVec 1) (op : BitVec 3) (d : Byte) : unitField (wordOf u op d) = u :=
  (BitVec.extractLsb'_append_eq_of_le (xhi := u ++ op) (xlo := d) (by omega : 8 ≤ 11)).trans BitVec.extractLsb'_append_eq_left

theorem opField_wordOf (u : BitVec 1) (op : BitVec 3) (d : Byte) : opField (wordOf u op d) = op :=
  (BitVec.extractLsb'_append_eq_of_le (xhi := u ++ op) (xlo := d) (le_refl 8)).trans BitVec.extractLsb'_append_eq_right

theorem dataField_wordOf (u : BitVec 1) (op : BitVec 3) (d : Byte) : dataField (wordOf u op d) = d :=
  BitVec.extractLsb'_append_eq_right

/-- A command's word decodes to that command, since each field of the word reads back (R45, R50). -/
theorem decode_encode (i : Instr) : decode (encode i) = .ok i := by
  cases i <;> simp [encode, decode, unitField_wordOf, opField_wordOf, dataField_wordOf]

/-- With its word at the head of the port, a step runs the command. -/
theorem step_withWords_cons (i : Instr) (ws : List CmdWord) (s : State) :
    step (s.withWords (encode i :: ws)) = exec i (s.withWords ws) :=
  step_cmd rfl (decode_encode i)

/-- A step that answers a next state leaves the other steps to run from it. -/
theorem run_succ_of_step {s t : State} (n : Nat) (h : step s = .next t) : core.run (n + 1) s = core.run n t := by
  have hcore : core.step s = .next t := h
  simp only [Host.Core.run, hcore]

/-- Settles O10, by induction on the commands: one step takes the first word and runs its command, with the same effect whether or not
the other words stand behind it. -/
theorem portRunIsFold : Obligations.PortRunIsFold := by
  intro is s
  induction is generalizing s with
  | nil => rfl
  | cons i is ih =>
    obtain ⟨t, ht⟩ := exec_withPort i s
    have hstep : step (s.withWords ((i :: is).map encode)) = .next (t.withWords (is.map encode)) :=
      (step_withWords_cons i _ s).trans (ht _)
    have hfold : runInstrs (i :: is) (s.withWords []) = runInstrs is (t.withWords []) := runInstrs_cons (ht [])
    rw [hfold, ← ih t]
    exact run_succ_of_step is.length hstep

/-! ### How many units a command appends -/

theorem encDataChars_length (u : EncUnit) (d : Byte) :
    (encDataChars u d).length = 1 ∨ (encDataChars u d).length = 2 := by
  unfold encDataChars
  split
  · exact .inl rfl
  · exact .inl rfl
  · exact .inr rfl

/-- ENC.END appends nothing, or the carry's character with two pads or one (R57, R64). -/
theorem encTail_length (u : EncUnit) :
    (encTail u).length = 0 ∨ (encTail u).length = 2 ∨ (encTail u).length = 3 := by
  obtain ⟨f, p⟩ := u
  match f with
  | 0 => exact .inl rfl
  | 1 => exact .inr (.inr rfl)
  | 2 => exact .inr (.inl rfl)

/-- Settles O44: each command's output is the list its rule names, and the length of that list. -/
theorem commandOutputCounts : Obligations.CommandOutputCounts := by
  intro i s
  cases i with
  | encData d => exact ⟨_, _, [], rfl, rfl, (List.append_nil _).symm, encDataChars_length s.enc d, rfl⟩
  | encEnd => exact ⟨_, _, [], rfl, rfl, (List.append_nil _).symm, encTail_length s.enc, rfl⟩
  | encClr => exact ⟨_, [], [], rfl, (List.append_nil _).symm, (List.append_nil _).symm, rfl, rfl⟩
  | decData d =>
    obtain ⟨u, bs, k, hlen, h⟩ := execDecData_effect d s
    exact ⟨_, [], bs, h s.port, (List.append_nil _).symm, rfl, rfl, hlen⟩
  | decEnd =>
    refine ⟨_, [], _, execDecEnd_eq s, (List.append_nil _).symm, rfl, rfl, ?_⟩
    rw [apply_ite List.length, freshBytes_length, length_tail, ite_self]
    exact tailLength_le _ _
  | decClr => exact ⟨_, [], [], rfl, (List.append_nil _).symm, (List.append_nil _).symm, rfl, rfl⟩

/-! ### Commands to different units -/

/-- States that agree outside the encoder and outside the decoder are one state, since the units share nothing (R25). -/
theorem eq_of_sameButEncoder_of_sameButDecoder {s t : State} (he : sameButEncoder s t) (hd : sameButDecoder s t) : s = t := by
  obtain ⟨u, cs, rfl⟩ := sameButEncoder_iff_withEncSide.mp he
  obtain ⟨henc, hencOut, -⟩ := sameButDecoder_iff.mp hd
  cases s
  cases henc
  cases hencOut
  rfl

theorem sameButEncoder_of_exec {i : Instr} (hi : i.unit = .encoder) {s t : State} (h : exec i s = .next t) :
    sameButEncoder s t := by
  obtain ⟨t', ht', hframe⟩ := exec_encoder_frame hi s
  cases h.symm.trans ht'
  exact hframe

theorem sameButDecoder_of_exec {i : Instr} (hi : i.unit = .decoder) {s t : State} (h : exec i s = .next t) :
    sameButDecoder s t := by
  obtain ⟨t', ht', hframe⟩ := exec_decoder_frame hi s
  cases h.symm.trans ht'
  exact hframe

/-- Settles O45: on the encoder's side both orders end as the ENC command alone does, and on the decoder's side as the DEC command
alone does. -/
theorem unitsCommute : Obligations.UnitsCommute := by
  intro i j s hi hj
  obtain ⟨a, ha, hsa⟩ := exec_encoder_frame hi s
  obtain ⟨b, ij, hb, hij, hb_ij⟩ := exec_decoder_congr hj hsa
  obtain ⟨a', ji, ha', hji, ha_ji⟩ := exec_encoder_congr hi (sameButDecoder_of_exec hj hb)
  cases ha.symm.trans ha'
  have henc : sameButEncoder ij ji := sameButEncoder_of_common hb_ij (sameButEncoder_of_exec hi hji)
  have hdec : sameButDecoder ij ji := sameButDecoder_of_common (sameButDecoder_of_exec hj hij) ha_ji
  rw [runInstrs_cons ha, runInstrs_cons hij, runInstrs_cons hb, runInstrs_cons hji,
    eq_of_sameButEncoder_of_sameButDecoder henc hdec]

/-! ### Steps only append -/

/-- t keeps s's tail mode, and its streams and its count of draws go on from those of s (R7, R34). -/
def onlyAppends (s t : State) : Prop :=
  t.tailMode = s.tailMode ∧ s.encOut <+: t.encOut ∧ s.decOut <+: t.decOut ∧ s.draws ≤ t.draws

theorem onlyAppends_refl (s : State) : onlyAppends s s :=
  ⟨rfl, List.prefix_rfl, List.prefix_rfl, le_rfl⟩

theorem onlyAppends_trans {r s t : State} (h : onlyAppends r s) (h' : onlyAppends s t) : onlyAppends r t := by
  obtain ⟨hmode, henc, hdec, hdraws⟩ := h
  obtain ⟨hmode', henc', hdec', hdraws'⟩ := h'
  exact ⟨hmode'.trans hmode, henc.trans henc', hdec.trans hdec', hdraws.trans hdraws'⟩

theorem exec_onlyAppends {i : Instr} {s t : State} (h : exec i s = .next t) : onlyAppends s t := by
  cases hi : i.unit with
  | encoder =>
    obtain ⟨u, cs, h'⟩ := exec_encoder_effect hi s
    cases h.symm.trans (h' s.port)
    exact ⟨rfl, List.prefix_append _ _, List.prefix_rfl, le_rfl⟩
  | decoder =>
    obtain ⟨u, bs, k, h'⟩ := exec_decoder_effect hi s
    cases h.symm.trans (h' s.port)
    exact ⟨rfl, List.prefix_rfl, List.prefix_append _ _, Nat.le_add_right _ _⟩

/-- Settles O51: taking an event from the port and RST write neither stream, and every command only appends. -/
theorem stepOnlyAppends : Obligations.StepOnlyAppends := fun s _ =>
  step_keeps (P := onlyAppends s) (fun _ _ h => h) (fun _ h => h)
    (fun _ _ _ h hexec => onlyAppends_trans h (exec_onlyAppends hexec)) (onlyAppends_refl s)

/-! ### Bits across the border of two words -/

/-- A slice that takes the low k bits of x and the bits of y from start up. -/
theorem extractLsb'_append_straddle {v w : Nat} (x : BitVec v) (y : BitVec w) (start k m : Nat) (h : start + m = w) :
    (x ++ y).extractLsb' start (k + m) = x.extractLsb' 0 k ++ y.extractLsb' start m := by
  ext i hi
  by_cases him : i < m
  · simp [BitVec.getLsbD_append, BitVec.getElem_append, him, show start + i < w by omega]
  · simp [BitVec.getLsbD_append, BitVec.getElem_append, him, show ¬ start + i < w by omega, show start + i - w = i - m by omega]

/-- Low bits that are clear take another word by OR. -/
theorem append_zero_or_setWidth {k m : Nat} (x : BitVec k) (y : BitVec m) :
    (x ++ 0#m) ||| y.setWidth (k + m) = x ++ y := by
  ext i hi
  by_cases him : i < m
  · simp [BitVec.getElem_append, him]
  · simp [BitVec.getElem_append, him, BitVec.getLsbD_of_ge y i (by omega)]

/-- The low k bits of one word shifted up, with the bits of another shifted down to their place. -/
theorem shiftLeft_or_ushiftRight {w : Nat} (x y : BitVec w) (start k m : Nat) (h : start + m = w) :
    x.setWidth (k + m) <<< m ||| (y >>> start).setWidth (k + m) = x.extractLsb' 0 k ++ y.extractLsb' start m := by
  ext i hi
  by_cases him : i < m
  · simp [BitVec.getElem_append, him]
  · simp [BitVec.getElem_append, him, BitVec.getLsbD_of_ge y (start + i) (by omega)]

/-! ### The bit order of an encoder group -/

section
variable (b0 b1 b2 : Byte)

/-- The second character's index takes the last two bits of b0 and the first four of b1 (R29). -/
theorem encIndex1_encCarry0 : encIndex1 (encCarry0 b0) b1 = b0.extractLsb' 0 2 ++ b1.extractLsb' 4 4 :=
  append_zero_or_setWidth _ _

/-- The third character's index takes the last four bits of b1 and the first two of b2 (R29). -/
theorem encIndex2_encCarry1 : encIndex2 (encCarry1 b1) b2 = b1.extractLsb' 0 4 ++ b2.extractLsb' 6 2 :=
  append_zero_or_setWidth _ _

theorem encGroup_first : (b0 ++ b1 ++ b2).extractLsb' 18 6 = encIndex0 b0 := by
  rw [BitVec.extractLsb'_append_eq_of_le (by omega), BitVec.extractLsb'_append_eq_of_le (by omega)]
  rfl

theorem encGroup_second : (b0 ++ b1 ++ b2).extractLsb' 12 6 = encIndex1 (encCarry0 b0) b1 := by
  rw [BitVec.extractLsb'_append_eq_of_le (by omega), encIndex1_encCarry0]
  exact extractLsb'_append_straddle b0 b1 4 2 4 rfl

theorem encGroup_third : (b0 ++ b1 ++ b2).extractLsb' 6 6 = encIndex2 (encCarry1 b1) b2 := by
  rw [encIndex2_encCarry1, ← BitVec.extractLsb'_append_eq_of_add_le (xhi := b0) (by omega : 0 + 4 ≤ 8)]
  exact extractLsb'_append_straddle (b0 ++ b1) b2 6 4 2 rfl

theorem encGroup_fourth : (b0 ++ b1 ++ b2).extractLsb' 0 6 = encIndex3 b2 :=
  BitVec.extractLsb'_append_eq_of_add_le (by omega)

end

theorem exec_encData_first {s : State} (d : Byte) (h : s.enc.flag = 0) :
    exec (.encData d) s = .next { s with
      enc := { flag := 1, prev := encCarry0 d }, encOut := s.encOut ++ [alpha (encIndex0 d)] } := by
  simp [exec, execEncData_eq, encDataChars, encDataCarry, encAdvance, h]

theorem exec_encData_second {s : State} (d : Byte) (h : s.enc.flag = 1) :
    exec (.encData d) s = .next { s with
      enc := { flag := 2, prev := encCarry1 d }, encOut := s.encOut ++ [alpha (encIndex1 s.enc.prev d)] } := by
  simp [exec, execEncData_eq, encDataChars, encDataCarry, encAdvance, h]

theorem exec_encData_third {s : State} (d : Byte) (h : s.enc.flag = 2) :
    exec (.encData d) s = .next { s with
      enc := { flag := 0, prev := 0#6 }
      encOut := s.encOut ++ [alpha (encIndex2 s.enc.prev d), alpha (encIndex3 d)] } := by
  simp [exec, execEncData_eq, encDataChars, encDataCarry, encAdvance, h]

/-- Settles O52: the three bytes are taken at flags 0, 1 and 2, and each index they form is the group's sextet in its place. -/
theorem encoderGroupBitOrder : Obligations.EncoderGroupBitOrder := by
  intro s b0 b1 b2 hflag g
  rw [encGroup_first, encGroup_second, encGroup_third, encGroup_fourth]
  refine (runInstrs_cons (exec_encData_first b0 hflag)).trans ((runInstrs_cons (exec_encData_second b1 rfl)).trans
    ((runInstrs_cons (exec_encData_third b2 rfl)).trans ?_))
  simp

/-! ### The bit order of a decoder group -/

section
variable (v0 v1 v2 v3 : Sextet)

/-- The first byte takes all of v0 and the first two bits of v1 (R30). -/
theorem decFinish0_decStart0 : decFinish0 (decStart0 v0) v1 = v0.extractLsb' 0 6 ++ v1.extractLsb' 4 2 := by
  rw [decFinish0, decStart0]
  exact shiftLeft_or_ushiftRight v0 v1 4 6 2 rfl

/-- The second byte takes the last four bits of v1 and the first four of v2 (R30). -/
theorem decFinish1_decStart1 : decFinish1 (decStart1 v1) v2 = v1.extractLsb' 0 4 ++ v2.extractLsb' 2 4 := by
  rw [decFinish1, decStart1]
  exact shiftLeft_or_ushiftRight v1 v2 2 4 4 rfl

/-- The third byte takes the last two bits of v2 and all of v3 (R30). -/
theorem decFinish2_decStart2 : decFinish2 (decStart2 v2) v3 = v2.extractLsb' 0 2 ++ v3.extractLsb' 0 6 := by
  rw [decFinish2, decStart2, ← BitVec.ushiftRight_zero (x := v3)]
  exact shiftLeft_or_ushiftRight v2 v3 0 2 6 rfl

theorem decGroup_first : (v0 ++ v1 ++ v2 ++ v3).extractLsb' 16 8 = decFinish0 (decStart0 v0) v1 := by
  rw [BitVec.extractLsb'_append_eq_of_le (by omega), BitVec.extractLsb'_append_eq_of_le (by omega), decFinish0_decStart0]
  exact extractLsb'_append_straddle v0 v1 4 6 2 rfl

theorem decGroup_second : (v0 ++ v1 ++ v2 ++ v3).extractLsb' 8 8 = decFinish1 (decStart1 v1) v2 := by
  rw [BitVec.extractLsb'_append_eq_of_le (by omega), decFinish1_decStart1,
    ← BitVec.extractLsb'_append_eq_of_add_le (xhi := v0) (by omega : 0 + 4 ≤ 6)]
  exact extractLsb'_append_straddle (v0 ++ v1) v2 2 4 4 rfl

theorem decGroup_third : (v0 ++ v1 ++ v2 ++ v3).extractLsb' 0 8 = decFinish2 (decStart2 v2) v3 := by
  rw [decFinish2_decStart2, ← BitVec.extractLsb'_append_eq_of_add_le (xhi := v0 ++ v1) (by omega : 0 + 2 ≤ 6)]
  exact extractLsb'_append_straddle (v0 ++ v1 ++ v2) v3 0 2 6 rfl

end

/-- The decoder inside a group that holds no invalid character, not stopped. -/
def exactGroup (f : Fin 4) (b0 b1 b2 : Byte) : DecUnit :=
  { flag := f, buf0 := b0, buf1 := b1, buf2 := b2, stop := false, taint := false }

theorem dec_eq_exactGroup {u : DecUnit} (hstop : u.stop = false) (htaint : u.taint = false) :
    u = exactGroup u.flag u.buf0 u.buf1 u.buf2 := by
  cases u
  simp_all [exactGroup]

section
variable {c : Byte} {v : Sextet} (hv : inv c = .valid v) (b0 b1 b2 : Byte) (s : State)
include hv

theorem exec_decData_first :
    exec (.decData c) (s.setDec (exactGroup 0 b0 b1 b2)) = .next (s.setDec (exactGroup 1 (decStart0 v) b1 b2)) :=
  execDecData_valid c v _ rfl hv

theorem exec_decData_second :
    exec (.decData c) (s.setDec (exactGroup 1 b0 b1 b2)) =
      .next (s.setDec (exactGroup 2 (decFinish0 b0 v) (decStart1 v) b2)) :=
  execDecData_valid c v _ rfl hv

theorem exec_decData_third :
    exec (.decData c) (s.setDec (exactGroup 2 b0 b1 b2)) =
      .next (s.setDec (exactGroup 3 b0 (decFinish1 b1 v) (decStart2 v))) :=
  execDecData_valid c v _ rfl hv

theorem exec_decData_fourth :
    exec (.decData c) (s.setDec (exactGroup 3 b0 b1 b2)) =
      .next ((emitDec [b0, b1, decFinish2 b2 v] s).setDec (exactGroup 0 0#8 0#8 0#8)) := by
  refine (execDecData_valid c v _ rfl hv).trans ?_
  rw [decConsume_last v _ _ rfl, emitGroup_eq]
  rfl

end

/-- Four valid characters emit the bytes their sextets make, whatever the buffer held before (R73 to R76). -/
theorem runInstrs_decChars_group {c0 c1 c2 c3 : Byte} {v0 v1 v2 v3 : Sextet} (h0 : inv c0 = .valid v0) (h1 : inv c1 = .valid v1)
    (h2 : inv c2 = .valid v2) (h3 : inv c3 = .valid v3) (b0 b1 b2 : Byte) (s : State) :
    runInstrs (decChars [c0, c1, c2, c3]) (s.setDec (exactGroup 0 b0 b1 b2)) = .next
      ((emitDec [decFinish0 (decStart0 v0) v1, decFinish1 (decStart1 v1) v2, decFinish2 (decStart2 v2) v3] s).setDec
        (exactGroup 0 0#8 0#8 0#8)) :=
  (runInstrs_cons (exec_decData_first h0 _ _ _ s)).trans <| (runInstrs_cons (exec_decData_second h1 _ _ _ s)).trans <|
    (runInstrs_cons (exec_decData_third h2 _ _ _ s)).trans <| runInstrs_cons (exec_decData_fourth h3 _ _ _ s)

/-- Settles O53: the four characters are taken at flags 0 to 3, and each byte they form is the group's byte in its place. -/
theorem decoderGroupBitOrder : Obligations.DecoderGroupBitOrder := by
  intro s c0 c1 c2 c3 v0 v1 v2 v3 hflag hstop htaint h0 h1 h2 h3 g
  have hstart : s = s.setDec (exactGroup 0 s.dec.buf0 s.dec.buf1 s.dec.buf2) :=
    congrArg s.setDec (hflag ▸ dec_eq_exactGroup hstop htaint)
  have hrun := runInstrs_decChars_group h0 h1 h2 h3 s.dec.buf0 s.dec.buf1 s.dec.buf2 s
  rw [← hstart] at hrun
  rw [hrun, decGroup_first, decGroup_second, decGroup_third]
  simp only [hflag, hstop, htaint]
  rfl

end Sys2Proof.Proofs
end

