-- ==== Sys2Proof/Proofs/Encoding.lean ====
section
/-! PROOFS. The statements of spec 30_encoding.md: the fields of a command word and its decoding (R41 to R46, R50), the unit a command
addresses (R42), and the assembler's reading of a printed command (R48). -/

namespace Sys2Proof.Proofs

open Sys2Proof Sys2Proof.Machine Sys2Proof.Safety

/-! ### A command word and its fields -/

/-- Every word is made of its three fields (R41). -/
theorem wordOf_fields (w : CmdWord) : wordOf (unitField w) (opField w) (dataField w) = w := by
  have hhigh : unitField w ++ opField w = w.extractLsb' 8 4 := BitVec.extractLsb'_append_extractLsb'_eq_extractLsb' rfl
  have hword : w.extractLsb' 8 4 ++ dataField w = w.extractLsb' 0 12 := BitVec.extractLsb'_append_extractLsb'_eq_extractLsb' rfl
  rw [wordOf, hhigh, hword, BitVec.extractLsb'_eq_self]

theorem wordOf_inj {u u' : BitVec 1} {op op' : BitVec 3} {d d' : Byte} :
    wordOf u op d = wordOf u' op' d' ↔ u = u' ∧ op = op' ∧ d = d' := by
  constructor
  · intro h
    refine ⟨?_, ?_, ?_⟩
    · rw [← unitField_wordOf u op d, h, unitField_wordOf]
    · rw [← opField_wordOf u op d, h, opField_wordOf]
    · rw [← dataField_wordOf u op d, h, dataField_wordOf]
  · rintro ⟨rfl, rfl, rfl⟩
    rfl

/-- A word equals the word of three given fields when its own fields are those. -/
theorem eq_wordOf_iff {w : CmdWord} {u : BitVec 1} {op : BitVec 3} {d : Byte} :
    w = wordOf u op d ↔ unitField w = u ∧ opField w = op ∧ dataField w = d := by
  rw [← wordOf_inj, wordOf_fields]

/-- The mask 0xF00 of R50 keeps U and OP and clears D. -/
theorem and_rowMask (w : CmdWord) : w &&& 0xF00#12 = wordOf (unitField w) (opField w) 0#8 := by
  have hmask : (0xF00#12 : CmdWord) = BitVec.allOnes 4 ++ 0#8 := rfl
  calc w &&& 0xF00#12
      = (unitField w ++ opField w ++ dataField w) &&& (BitVec.allOnes 4 ++ 0#8) := by rw [← wordOf, wordOf_fields, hmask]
    _ = wordOf (unitField w) (opField w) 0#8 := by rw [BitVec.and_append, BitVec.and_allOnes, BitVec.and_zero, wordOf]

/-- R45's hex forms: D is put into a word whose low eight bits are clear by OR. -/
theorem wordOf_zero_or (u : BitVec 1) (op : BitVec 3) (d : Byte) : wordOf u op 0#8 ||| d.setWidth 12 = wordOf u op d :=
  append_zero_or_setWidth (u ++ op) d

/-! ### Decoding by the fields -/

theorem decode_wordOf (u : BitVec 1) (op : BitVec 3) (d : Byte) :
    decode (wordOf u op d) =
      if op = 0b000#3 then .ok (if u = 0#1 then .encData d else .decData d)
      else if op = 0b001#3 then .ok (if u = 0#1 then .encEnd else .decEnd)
      else if op = 0b010#3 then .ok (if u = 0#1 then .encClr else .decClr)
      else .error (.reserved (wordOf u op d)) := by
  rw [decode, unitField_wordOf, opField_wordOf, dataField_wordOf]

theorem decode_reserved {w : CmdWord} (h : 3 ≤ (opField w).toNat) : decode w = .error (.reserved w) := by
  have hop : ∀ op : BitVec 3, op.toNat < 3 → opField w ≠ op := by
    rintro op hlt rfl
    omega
  rw [decode, if_neg (hop _ (by decide)), if_neg (hop _ (by decide)), if_neg (hop _ (by decide))]

/-- OP is bits 10:8 of the word as a number (R41). -/
theorem opField_toNat (w : CmdWord) : (opField w).toNat = w.toNat / 256 % 8 := by
  rw [opField, BitVec.extractLsb'_toNat, Nat.shiftRight_eq_div_pow]

/-- Settles O2: a hex form is the word of its row's U and OP with D, and decodes by those fields; a reserved OP is none of the three
rows'. -/
theorem hexFormsDecode : Obligations.HexFormsDecode := by
  constructor
  · intro d
    have hrow : ∀ u op, decode (wordOf u op 0#8 ||| d.setWidth 12) = decode (wordOf u op d) := fun u op =>
      congrArg decode (wordOf_zero_or u op d)
    simp only [decode_wordOf] at hrow
    exact ⟨hrow 0#1 0b000#3, hrow 0#1 0b001#3, hrow 0#1 0b010#3, hrow 1#1 0b000#3, hrow 1#1 0b001#3, hrow 1#1 0b010#3⟩
  · intro w h
    exact decode_reserved ((opField_toNat w).symm ▸ h)

/-- The fields a word must have to spell a command: the rows of R43's table, with D the operand of DATA and ignored elsewhere (R44). -/
def fieldsSpell (w : CmdWord) : Instr → Prop
  | .encData d => unitField w = 0#1 ∧ opField w = 0b000#3 ∧ dataField w = d
  | .encEnd => unitField w = 0#1 ∧ opField w = 0b001#3
  | .encClr => unitField w = 0#1 ∧ opField w = 0b010#3
  | .decData d => unitField w = 1#1 ∧ opField w = 0b000#3 ∧ dataField w = d
  | .decEnd => unitField w = 1#1 ∧ opField w = 0b001#3
  | .decClr => unitField w = 1#1 ∧ opField w = 0b010#3

theorem fieldsSpell_of_decode {w : CmdWord} {i : Instr} (h : decode w = .ok i) : fieldsSpell w i := by
  have hone : unitField w ≠ 0#1 → unitField w = 1#1 := (BitVec.eq_zero_or_eq_one (unitField w)).resolve_left
  unfold decode at h
  split_ifs at h with hop hu hop hu hop hu <;> cases h
  · exact ⟨hu, hop, rfl⟩
  · exact ⟨hone hu, hop, rfl⟩
  · exact ⟨hu, hop⟩
  · exact ⟨hone hu, hop⟩
  · exact ⟨hu, hop⟩
  · exact ⟨hone hu, hop⟩

theorem decode_of_fieldsSpell {w : CmdWord} {i : Instr} (h : fieldsSpell w i) : decode w = .ok i := by
  cases i with
  | encData d | decData d =>
    obtain ⟨hu, hop, rfl⟩ := h
    simp [decode, hu, hop]
  | encEnd | encClr | decEnd | decClr =>
    obtain ⟨hu, hop⟩ := h
    simp [decode, hu, hop]

/-- The masked match of R50 asks for the fields of the command's row: a DATA word must be the command's own, and an END or CLR word must
be so once D is cleared. -/
theorem maskedMatch_iff_fieldsSpell (w : CmdWord) (i : Instr) : w &&& readMask i = encode i ↔ fieldsSpell w i := by
  have hall : w &&& 0xFFF#12 = w := BitVec.and_allOnes
  cases i with
  | encData d | decData d =>
    rw [readMask, hall]
    exact eq_wordOf_iff
  | encEnd | encClr | decEnd | decClr =>
    rw [readMask, and_rowMask, encode, wordOf_inj]
    simp only [fieldsSpell, and_true]

/-- Settles O4: decoding and the masked match both ask for the fields of the command's row. -/
theorem decodeIffMaskedMatch : Obligations.DecodeIffMaskedMatch := fun w i =>
  ⟨fun h => (maskedMatch_iff_fieldsSpell w i).mpr (fieldsSpell_of_decode h),
    fun h => decode_of_fieldsSpell ((maskedMatch_iff_fieldsSpell w i).mp h)⟩

/-! ### A reserved word at the port -/

theorem takeEvent_reserved {s : State} {w : CmdWord} {rest : List PortEvent}
    (hp : s.port = .cmd w :: rest) (hd : decode w = .error (.reserved w)) : takeEvent s = .reserved w := by
  simp [takeEvent, hp, hd]

/-- Settles O5: a reserved word decodes to RESERVED of itself, and the port refuses what it takes as reserved (R46). -/
theorem reservedWordRefused : Obligations.ReservedWordRefused := by
  intro s w rest hp hop
  have hd : decode w = .error (.reserved w) := decode_reserved hop
  exact ⟨hd, by rw [step, takeEvent_reserved hp hd]⟩

/-! ### The U bit -/

theorem unitField_encode_encoder {i : Instr} (h : i.unit = .encoder) : unitField (encode i) = 0#1 := by
  obtain ⟨d, rfl⟩ | rfl | rfl := encoder_command h <;> exact unitField_wordOf _ _ _

theorem unitField_encode_decoder {i : Instr} (h : i.unit = .decoder) : unitField (encode i) = 1#1 := by
  obtain ⟨d, rfl⟩ | rfl | rfl := decoder_command h <;> exact unitField_wordOf _ _ _

/-- Settles O43: the word of an ENC command has U = 0 and its frame is the encoder's, and that of a DEC command has U = 1 and the
decoder's. -/
theorem commandsTouchOneUnit : Obligations.CommandsTouchOneUnit := by
  intro i s
  cases hi : i.unit with
  | encoder =>
    obtain ⟨t, ht, hframe⟩ := exec_encoder_frame hi s
    exact ⟨t, ht, unitField_encode_encoder hi, hframe⟩
  | decoder =>
    obtain ⟨t, ht, hframe⟩ := exec_decoder_frame hi s
    exact ⟨t, ht, unitField_encode_decoder hi, hframe⟩

/-! ### Reading a printed number -/

theorem decDigit_digitChar (n : Nat) : decDigit (digitChar n) = some (n % 10) := by
  have hdigits : ∀ k < 10, decDigit (Char.ofNat ('0'.toNat + k)) = some k := by decide
  exact hdigits (n % 10) (Nat.mod_lt n (by decide))

/-- A printed digit is none of the characters the assembler gives another meaning. -/
theorem digitChar_ne {c : Char} (h : decDigit c = none) (n : Nat) : digitChar n ≠ c := by
  rintro rfl
  simp [decDigit_digitChar] at h

theorem skipBlanks_digitChar (n : Nat) (cs : List Char) : skipBlanks (digitChar n :: cs) = digitChar n :: cs := by
  have hblank : isBlank (digitChar n) = false := by
    simp [isBlank, digitChar_ne (c := ' ') rfl, digitChar_ne (c := '\t') rfl]
  simp [skipBlanks, hblank]

/-- An operand that begins with two digits is a decimal number: neither a quoted character nor a number after 0x (R48). -/
theorem takeUnit_digitChar (m n : Nat) (cs : List Char) :
    takeUnit (' ' :: digitChar m :: digitChar n :: cs) = takeNumber 10 decDigit (digitChar m :: digitChar n :: cs) := by
  have hskip : skipBlanks (' ' :: digitChar m :: digitChar n :: cs) = digitChar m :: digitChar n :: cs :=
    skipBlanks_digitChar m _
  rw [takeUnit, hskip]
  split
  case h_1 heq => exact absurd (List.cons.inj heq).1 (digitChar_ne rfl m)
  case h_2 heq => exact absurd (List.cons.inj (List.cons.inj heq).2).1 (digitChar_ne rfl n)
  case h_3 => rfl

/-- The three digits of a byte are those of its value (R48: a number 0 to 255). -/
theorem printByte_value (b : Byte) :
    (b.toNat / 100 % 10 * 10 + b.toNat / 10 % 10) * 10 + b.toNat % 10 = b.toNat := by
  have := b.isLt
  omega

theorem takeNumber_printByte (b : Byte) : takeNumber 10 decDigit (printByte b) = some (b, []) := by
  simp [takeNumber, printByte, takeDigits, decDigit_digitChar, printByte_value, b.isLt]

theorem takeOnlyUnit_printByte (b : Byte) : takeOnlyUnit (' ' :: printByte b) = some b := by
  have hunit : takeUnit (' ' :: printByte b) = some (b, []) := (takeUnit_digitChar _ _ _).trans (takeNumber_printByte b)
  rw [takeOnlyUnit, hunit]
  rfl

theorem asmLine_encData (cs : List Char) :
    asmLine (['E', 'N', 'C', '.', 'D', 'A', 'T', 'A', ' '] ++ cs) = (takeOnlyUnit (' ' :: cs)).map fun b => [.encData b] := rfl

theorem asmLine_decData (cs : List Char) :
    asmLine (['D', 'E', 'C', '.', 'D', 'A', 'T', 'A', ' '] ++ cs) = (takeOnlyUnit (' ' :: cs)).map fun b => [.decData b] := rfl

/-- Settles O60: the mnemonic selects the command, and the three digits of a DATA operand read back as its byte. -/
theorem assemblerReadsPrintedCommand : Obligations.AssemblerReadsPrintedCommand := by
  intro i
  cases i with
  | encData d =>
    rw [printInstr, asmLine_encData, takeOnlyUnit_printByte]
    rfl
  | decData d =>
    rw [printInstr, asmLine_decData, takeOnlyUnit_printByte]
    rfl
  | encEnd | encClr | decEnd | decClr => rfl

end Sys2Proof.Proofs
end

