-- ==== Sys2Proof/Proofs/Alphabet.lean ====
section
/-! PROOFS. The statements of spec 40_alphabet_padding.md: the alphabet's closed form (R52), INV and its agreement with ALPHA (R54 to R56),
and which characters the encoder appends (R53, R58). -/

namespace Sys2Proof.Proofs

open Sys2Proof Sys2Proof.Machine Sys2Proof.Safety

/-! ### ALPHA -/

/-- Settles O15: the table's 64 rows are compared with the closed form. -/
theorem alphaClosedForm : Obligations.AlphaClosedForm := by
  unfold Obligations.AlphaClosedForm
  decide

/-! ### INV, one lemma for each class it answers -/

theorem inv_eq_pad_iff (c : Byte) : inv c = .pad ↔ c = 0x3D#8 := by
  unfold inv
  split_ifs with hpad <;> simp [hpad]

/-- The valid codes and their sextets, as equations of numbers in which nothing wraps (R54). -/
theorem inv_eq_valid_iff (c : Byte) (v : Sextet) : inv c = .valid v ↔
    (c.toNat = 0x2B ∧ v.toNat = 62) ∨ (c.toNat = 0x2F ∧ v.toNat = 63) ∨
    (0x30 ≤ c.toNat ∧ c.toNat ≤ 0x39 ∧ v.toNat + 0x30 = c.toNat + 52) ∨
    (0x41 ≤ c.toNat ∧ c.toNat ≤ 0x5A ∧ v.toNat + 0x41 = c.toNat) ∨
    (0x61 ≤ c.toNat ∧ c.toNat ≤ 0x7A ∧ v.toNat + 0x61 = c.toNat + 26) := by
  unfold inv
  split_ifs <;> simp only [CharClass.valid.injEq, false_iff] <;> bv_omega

theorem inAlphabetOrPad_iff (c : Byte) : inAlphabetOrPad c = true ↔
    (0x41 ≤ c.toNat ∧ c.toNat ≤ 0x5A) ∨ (0x61 ≤ c.toNat ∧ c.toNat ≤ 0x7A) ∨ (0x30 ≤ c.toNat ∧ c.toNat ≤ 0x39) ∨
    c.toNat = 0x2B ∨ c.toNat = 0x2F ∨ c.toNat = 0x3D := by
  simp [inAlphabetOrPad, or_assoc]

/-- The branches of INV before the last cover exactly the ranges of `[A-Za-z0-9+/=]` (R54, R58). -/
theorem inv_eq_invalid_iff (c : Byte) : inv c = .invalid ↔ inAlphabetOrPad c = false := by
  rw [← Bool.not_eq_true, inAlphabetOrPad_iff]
  unfold inv
  split_ifs <;> simp only [true_iff, false_iff] <;> bv_omega

/-- Settles O17: the last branch of INV is taken exactly outside the ranges, the first exactly at 0x3D, and the codes that take the last
are counted. -/
theorem invClassifiesEveryCode : Obligations.InvClassifiesEveryCode :=
  ⟨inv_eq_invalid_iff, inv_eq_pad_iff, rfl⟩

/-- Settles O18: the numbers of a valid code and its sextet satisfy the test of the chain that their range comes to first. -/
theorem invAgreesWithRangeChain : Obligations.InvAgreesWithRangeChain := by
  intro c v hv
  rw [inv_eq_valid_iff] at hv
  simp only [← BitVec.toNat_inj, BitVec.reduceToNat]
  split_ifs <;> omega

/-! ### INV and ALPHA invert each other -/

/-- Both directions of R56 at once: the ranges of INV are those of ALPHA's closed form, read from the other side. -/
theorem inv_eq_valid_iff_alpha (c : Byte) (v : Sextet) : inv c = .valid v ↔ alpha v = c := by
  rw [inv_eq_valid_iff, ← BitVec.toNat_inj, alphaClosedForm v]
  have hv : v.toNat < 64 := v.isLt
  split_ifs <;> omega

theorem inv_alpha (i : Sextet) : inv (alpha i) = .valid i := (inv_eq_valid_iff_alpha _ i).mpr rfl

/-- Settles O16: each half is one direction of `inv_eq_valid_iff_alpha`. -/
theorem invInvertsAlpha : Obligations.InvInvertsAlpha :=
  ⟨inv_alpha, fun c v => (inv_eq_valid_iff_alpha c v).mp⟩

/-! ### The characters the encoder appends -/

/-- INV tells ALPHA's characters from the pad, since it answers VALID for one and PAD for the other (R53). -/
theorem alpha_ne_pad (i : Sextet) : alpha i ≠ 0x3D#8 := by
  intro h
  have hpad : inv (alpha i) = .pad := (inv_eq_pad_iff _).mpr h
  rw [inv_alpha] at hpad
  cases hpad

theorem inAlphabetOrPad_alpha (i : Sextet) : inAlphabetOrPad (alpha i) = true := by
  by_contra h
  have hinvalid : inv (alpha i) = .invalid := (inv_eq_invalid_iff _).mpr (Bool.eq_false_of_not_eq_true h)
  rw [inv_alpha] at hinvalid
  cases hinvalid

/-- Every character of ENC.DATA is read from the ROM (R60 to R62). -/
theorem mem_encDataChars {u : EncUnit} {d c : Byte} (hc : c ∈ encDataChars u d) : ∃ i, c = alpha i := by
  obtain ⟨f, p⟩ := u
  match f with
  | 0 => exact ⟨_, List.mem_singleton.mp hc⟩
  | 1 => exact ⟨_, List.mem_singleton.mp hc⟩
  | 2 =>
    obtain h | h := List.mem_pair.mp hc
    · exact ⟨_, h⟩
    · exact ⟨_, h⟩

/-- Every character of ENC.END is the carry's, read from the ROM, or a pad (R64). -/
theorem mem_encTail {u : EncUnit} {c : Byte} (hc : c ∈ encTail u) : (∃ i, c = alpha i) ∨ c = padChar := by
  unfold encTail at hc
  split_ifs at hc
  · cases hc
  · obtain h | h := List.mem_cons.mp hc
    · exact .inl ⟨_, h⟩
    · exact .inr (List.eq_of_mem_replicate h)

/-- Settles O19: INV answers VALID for every ROM entry, so none is the pad, and ENC.DATA appends ROM entries alone. -/
theorem noPadBeforeEnd : Obligations.NoPadBeforeEnd := by
  refine ⟨alpha_ne_pad, fun s d => ⟨_, _, rfl, rfl, fun c hc => ?_⟩⟩
  obtain ⟨i, rfl⟩ := mem_encDataChars hc
  exact alpha_ne_pad i

/-! ### ENC_OUT stays closed -/

/-- Every unit a command appends to ENC_OUT is ALPHA(i) for some i or PAD (R58). -/
theorem exec_encOut {i : Instr} {s t : State} (h : exec i s = .next t) :
    ∃ cs, t.encOut = s.encOut ++ cs ∧ ∀ c ∈ cs, (∃ j, c = alpha j) ∨ c = padChar := by
  cases hi : i.unit with
  | encoder =>
    obtain ⟨d, rfl⟩ | rfl | rfl := encoder_command hi <;> cases h
    · exact ⟨_, rfl, fun _ hc => .inl (mem_encDataChars hc)⟩
    · exact ⟨_, rfl, fun _ hc => mem_encTail hc⟩
    · exact ⟨[], (List.append_nil _).symm, List.forall_mem_nil _⟩
  | decoder =>
    obtain ⟨-, hencOut, -⟩ := sameButDecoder_iff.mp (sameButDecoder_of_exec hi h)
    exact ⟨[], by rw [hencOut, List.append_nil], List.forall_mem_nil _⟩

theorem exec_keeps_encOutClosed {i : Instr} {s t : State} (hs : encOutClosed s) (h : exec i s = .next t) : encOutClosed t := by
  obtain ⟨cs, hcs, hnew⟩ := exec_encOut h
  intro c hc
  rw [hcs, List.mem_append] at hc
  obtain hold | happ := hc
  · exact hs c hold
  · obtain ⟨j, rfl⟩ | rfl := hnew c happ
    · exact inAlphabetOrPad_alpha j
    · rfl

/-- Settles O49: a command appends only ROM entries and pads, which are all of the alphabet, and neither RST nor taking an event from the
port writes ENC_OUT. -/
theorem stepKeepsEncOutClosed : Obligations.StepKeepsEncOutClosed := fun _ _ =>
  step_keeps (P := encOutClosed) (fun _ _ hs => hs) (fun _ hs => hs) fun _ _ _ => exec_keeps_encOutClosed

end Sys2Proof.Proofs
end

