-- ==== Sys2Proof/Proofs/Encoder.lean ====
section
/-! PROOFS. The statements of spec 41_encoder.md: the cases of ENC.DATA (R60 to R63), ENC.END (R64), ENC.CLR (R65), the laws of a
stream's text (R66 to R68), and that the encoder depends on its own state alone (R69). -/

namespace Sys2Proof.Proofs

open Sys2Proof Sys2Proof.Machine

/-! ### The source's shifts and masks as slices -/

/-- A slice of a word shifted up: the bits that came up to it, above the clear bits they left. -/
theorem extractLsb'_shiftLeft_straddle {w : Nat} (x : BitVec w) (start k m : Nat) (h : start + (k + m) ≤ w) :
    (x <<< (start + m)).extractLsb' start (k + m) = x.extractLsb' 0 k ++ 0#m := by
  ext i hi
  have hw : start + i < w := by omega
  by_cases him : i < m
  · simp [BitVec.getElem_append, him]
  · simp [BitVec.getElem_append, him, hw, show start + i - (start + m) = i - m by omega,
      BitVec.getLsbD_eq_getElem (show i - m < w by omega)]

/-- A word shifted down so far that only its top m bits are left, at any width. -/
theorem setWidth_ushiftRight_top {w : Nat} (x : BitVec w) (start m k : Nat) (h : start + m = w) :
    (x >>> start).setWidth k = (x.extractLsb' start m).setWidth k := by
  ext i hi
  by_cases him : i < m
  · simp [him]
  · simp [him, BitVec.getLsbD_of_ge x (start + i) (by omega)]

section
variable (p : Sextet) (d : Byte)

/-- R60: d >> 2. -/
theorem encIndex0_eq : encIndex0 d = (d >>> 2).setWidth 6 :=
  BitVec.setWidth_ushiftRight_eq_extractLsb.symm

/-- R60: (d << 6) >> 2 in 8 bits. -/
theorem encCarry0_eq : encCarry0 d = ((d <<< 6) >>> 2).setWidth 6 :=
  (BitVec.setWidth_ushiftRight_eq_extractLsb.trans (extractLsb'_shiftLeft_straddle d 2 2 4 le_rfl)).symm

/-- R61: prev | (d >> 4). -/
theorem encIndex1_eq : encIndex1 p d = p ||| (d >>> 4).setWidth 6 :=
  congrArg (p ||| ·) (setWidth_ushiftRight_top d 4 4 6 rfl).symm

/-- R61: the low 4 bits of d, shifted up by 2. -/
theorem encCarry1_eq : encCarry1 d = ((d &&& 0x0F#8) <<< 2).setWidth 6 := by
  have hlow : (d &&& 0x0F#8).extractLsb' 0 4 = d.extractLsb' 0 4 := BitVec.extractLsb'_and.trans BitVec.and_allOnes
  rw [encCarry1, ← hlow, BitVec.setWidth_eq_extractLsb' (by omega)]
  exact (extractLsb'_shiftLeft_straddle (d &&& 0x0F#8) 0 4 2 (by omega)).symm

/-- R62: prev | (d >> 6). -/
theorem encIndex2_eq : encIndex2 p d = p ||| (d >>> 6).setWidth 6 :=
  congrArg (p ||| ·) (setWidth_ushiftRight_top d 6 2 6 rfl).symm

/-- R62: d & 0x3F. -/
theorem encIndex3_eq : encIndex3 d = (d &&& 0x3F#8).setWidth 6 := by
  rw [BitVec.setWidth_eq_extractLsb' (by omega), BitVec.extractLsb'_and]
  exact BitVec.and_allOnes.symm

end

/-! ### ENC.DATA, case by case -/

/-- Settles O20: the slices of R60 are the source's shifts. -/
theorem encDataFirstByte : Obligations.EncDataFirstByte := by
  intro s d hflag
  rw [exec_encData_first d hflag, encIndex0_eq, encCarry0_eq]

/-- Settles O21: the slices of R61 are the source's shift and mask. -/
theorem encDataSecondByte : Obligations.EncDataSecondByte := by
  intro s d hflag
  rw [exec_encData_second d hflag, encIndex1_eq, encCarry1_eq]

/-- Settles O22: the slices of R62 are the source's shift and mask. -/
theorem encDataThirdByte : Obligations.EncDataThirdByte := by
  intro s d hflag
  rw [exec_encData_third d hflag, encIndex2_eq, encIndex3_eq]

theorem encAdvance_val (f : Fin 3) : (encAdvance f).val = (f.val + 1) % 3 := Fin.val_add f 1

/-- A byte gives one character, and one more when it completes a group (R60 to R62). -/
theorem encDataChars_length_eq (u : EncUnit) (d : Byte) : (encDataChars u d).length = 1 + (u.flag.val + 1) / 3 := by
  obtain ⟨f, p⟩ := u
  match f with
  | 0 | 1 | 2 => simp [encDataChars]

theorem encAdvance_eq_zero_iff (u : EncUnit) (d : Byte) : encAdvance u.flag = 0 ↔ (encDataChars u d).length = 2 := by
  rw [encDataChars_length_eq, Fin.ext_iff, encAdvance_val, Fin.val_zero]
  omega

/-- Settles O23: the counter after ENC.DATA is 0 exactly when the byte gave two characters. -/
theorem encDataAdvancesModThree : Obligations.EncDataAdvancesModThree := by
  intro s d
  refine ⟨_, execEncData_eq d s, encAdvance_val s.enc.flag, ?_⟩
  rw [List.length_append, Nat.add_left_cancel_iff]
  exact encAdvance_eq_zero_iff s.enc d

/-! ### ENC.END and ENC.CLR -/

/-- Above flag 0, where the tail is not empty, `pads` counts 3 - flag (R57, R64). -/
theorem encTail_eq (u : EncUnit) :
    encTail u = if u.flag.val = 0 then [] else alpha u.prev :: List.replicate (3 - u.flag.val) 0x3D#8 := by
  simp only [encTail, pads, Fin.ext_iff, Fin.val_zero]
  split_ifs <;> rfl

/-- Settles O24: ENC.END appends the tail, which is the list of R64, and resets the unit. -/
theorem encEndFinalizes : Obligations.EncEndFinalizes := by
  intro s
  rw [← encTail_eq]
  exact execEncEnd_eq s

/-- Settles O25: ENC.CLR is the encoder's reset alone. -/
theorem encClrDiscards : Obligations.EncClrDiscards := fun _ => rfl

/-! ### The encoder's commands read the encoder alone -/

/-- What an ENC command leaves in the encoder and appends is fixed by the encoder's state before it (R69). -/
theorem exec_encoder_determined {i : Instr} (hi : i.unit = .encoder) (u : EncUnit) :
    ∃ u' cs, ∀ s : State, s.enc = u → exec i s = .next (withEncSide u' (s.encOut ++ cs) s) := by
  obtain ⟨d, rfl⟩ | rfl | rfl := encoder_command hi
  · exact ⟨{ flag := encAdvance u.flag, prev := encDataCarry u d }, encDataChars u d, by rintro s rfl; rfl⟩
  · exact ⟨EncUnit.reset, encTail u, by rintro s rfl; rfl⟩
  · exact ⟨EncUnit.reset, [], by rintro s rfl; rw [List.append_nil]; rfl⟩

/-- Settles O26: both states take the unit and the characters their common encoder state fixes, and nothing outside the encoder's side
changes. -/
theorem encoderDependsOnItselfAlone : Obligations.EncoderDependsOnItselfAlone := by
  intro i s₁ s₂ hi henc
  obtain ⟨u, cs, h⟩ := exec_encoder_determined hi s₂.enc
  exact ⟨_, _, cs, h s₁ henc, h s₂ rfl, rfl, rfl, rfl, rfl⟩

/-! ### The text of a stream -/

/-- From s to t the encoder has taken k bytes: it has appended a character for each and one more for each group completed, none of them
a pad, and its counter has advanced k times (R67). -/
def tookBytes (k : Nat) (s t : State) : Prop :=
  ∃ cs, t.encOut = s.encOut ++ cs ∧ cs.length = k + (s.enc.flag.val + k) / 3 ∧ (∀ c ∈ cs, c ≠ 0x3D#8) ∧
    t.enc.flag.val = (s.enc.flag.val + k) % 3

theorem tookBytes_zero (s : State) : tookBytes 0 s s := by
  have hflag : s.enc.flag.val < 3 := s.enc.flag.isLt
  exact ⟨[], (List.append_nil _).symm, by rw [List.length_nil]; omega, List.forall_mem_nil _, by omega⟩

theorem tookBytes_trans {j k : Nat} {r s t : State} (h : tookBytes j r s) (h' : tookBytes k s t) : tookBytes (j + k) r t := by
  obtain ⟨cs, hout, hlen, hpad, hflag⟩ := h
  obtain ⟨cs', hout', hlen', hpad', hflag'⟩ := h'
  refine ⟨cs ++ cs', by rw [hout', hout, List.append_assoc], ?_, ?_, by omega⟩
  · rw [List.length_append]
    omega
  · intro c hc
    exact (List.mem_append.mp hc).elim (hpad c) (hpad' c)

theorem exec_encData_tookBytes (d : Byte) (s : State) : ∃ t, exec (.encData d) s = .next t ∧ tookBytes 1 s t := by
  refine ⟨_, execEncData_eq d s, encDataChars s.enc d, rfl, encDataChars_length_eq s.enc d, fun c hc => ?_,
    encAdvance_val s.enc.flag⟩
  obtain ⟨i, rfl⟩ := mem_encDataChars hc
  exact alpha_ne_pad i

/-- R67 from any position. -/
theorem runInstrs_encBytes (bs : List Byte) (s : State) :
    ∃ t, runInstrs (encBytes bs) s = .next t ∧ tookBytes bs.length s t := by
  induction bs generalizing s with
  | nil => exact ⟨s, rfl, tookBytes_zero s⟩
  | cons b bs ih =>
    obtain ⟨s', hb, hs'⟩ := exec_encData_tookBytes b s
    obtain ⟨t, hbs, ht⟩ := ih s'
    refine ⟨t, (runInstrs_cons hb).trans hbs, ?_⟩
    rw [List.length_cons, Nat.add_comm]
    exact tookBytes_trans hs' ht

/-- Settles O54: from the reset state the counter starts at 0. -/
theorem encoderPrefixLaw : Obligations.EncoderPrefixLaw := by
  intro s bs hreset
  obtain ⟨t, hrun, cs, hout, hlen, hpad, hflag⟩ := runInstrs_encBytes bs s
  have hzero : s.enc.flag.val = 0 := by rw [hreset]; rfl
  rw [hzero, Nat.zero_add] at hlen hflag
  exact ⟨t, cs, hrun, hout, hlen, hpad, hflag⟩

/-- ENC.END's characters are the carry's, if there is one, and then the pads that fill up the group (R64). -/
theorem encTail_split (u : EncUnit) :
    ∃ cs, encTail u = cs ++ List.replicate (if u.flag.val = 0 then 0 else 3 - u.flag.val) 0x3D#8 ∧
      cs.length = (u.flag.val + 2) / 3 ∧ ∀ c ∈ cs, c ≠ 0x3D#8 := by
  rw [encTail_eq]
  by_cases h : u.flag.val = 0
  · exact ⟨[], by simp [h], by simp [h], List.forall_mem_nil _⟩
  · refine ⟨[alpha u.prev], by simp [h], ?_, List.forall_mem_singleton.mpr (alpha_ne_pad _)⟩
    rw [List.length_singleton]
    omega

/-- A stream's text: n + ceil(n/3) characters that are no pads, and then the pads that fill up its last group (R66, R68). -/
theorem runInstrs_encStream (bs : List Byte) (s : State) :
    ∃ t cs, runInstrs (encStream bs) s = .next t ∧
      t.encOut = s.encOut ++ (cs ++ List.replicate (if bs.length % 3 = 0 then 0 else 3 - bs.length % 3) 0x3D#8) ∧
      cs.length = bs.length + (bs.length + 2) / 3 ∧ ∀ c ∈ cs, c ≠ 0x3D#8 := by
  obtain ⟨t, cs, hrun, hout, hlen, hdata, hflag⟩ := encoderPrefixLaw (resetEnc s) bs rfl
  obtain ⟨tail, htail, htailLen, htailData⟩ := encTail_split t.enc
  refine ⟨_, cs ++ tail, (runInstrs_cons (encClrDiscards s)).trans ((runInstrs_append hrun).trans
    (runInstrs_cons (execEncEnd_eq t))), ?_, ?_, List.forall_mem_append.mpr ⟨hdata, htailData⟩⟩
  · rw [hflag] at htail
    dsimp only
    rw [htail, hout, resetEnc_encOut, List.append_assoc, List.append_assoc]
  · rw [List.length_append, hlen, htailLen, hflag]
    omega

theorem filter_ne_pad_eq_self {cs : List Byte} (h : ∀ c ∈ cs, c ≠ 0x3D#8) : cs.filter (fun c => c ≠ 0x3D#8) = cs :=
  List.filter_eq_self.mpr fun c hc => decide_eq_true (h c hc)

theorem filter_eq_pad_eq_nil {cs : List Byte} (h : ∀ c ∈ cs, c ≠ 0x3D#8) : cs.filter (fun c => c = 0x3D#8) = [] :=
  List.filter_eq_nil_iff.mpr fun c hc hpad => h c hc (of_decide_eq_true hpad)

/-- Settles O55: the stream's text is n + ceil(n/3) data characters and the pads that fill up its last group. -/
theorem encoderLengthLaw : Obligations.EncoderLengthLaw := by
  intro s bs
  obtain ⟨t, cs, hrun, hout, hlen, hdata⟩ := runInstrs_encStream bs s
  refine ⟨t, _, hrun, hout, ?_, ?_, ?_⟩
  · rw [List.length_append, List.length_replicate, hlen]
    split_ifs <;> omega
  · rw [List.filter_append, filter_ne_pad_eq_self hdata, List.filter_replicate_of_neg (by decide), List.append_nil, hlen]
  · rw [List.filter_append, filter_eq_pad_eq_nil hdata, List.filter_replicate_of_pos (by decide), List.nil_append,
      List.length_replicate]

/-- Settles O56: the number of pads that fill up the last group is 0, 2 or 1 as n mod 3 is 0, 1 or 2. -/
theorem encoderPadsOnlyAtEnd : Obligations.EncoderPadsOnlyAtEnd := by
  intro s bs
  obtain ⟨t, cs, hrun, hout, -, hdata⟩ := runInstrs_encStream bs s
  exact ⟨t, cs, _, hrun, hout, hdata, fun h => by simp [h], fun h => by simp [h], fun h => by simp [h]⟩

end Sys2Proof.Proofs
end

