-- ==== Sys2Proof/Proofs/Decoder.lean ====
section
/-! PROOFS. The statements of spec 42_decoder.md: the cases of DEC.DATA (R71 to R77), DEC.END (R78 to R80), DEC.CLR (R81), the laws of a
stream's bytes (R82), the round trip (R83), and what a command's shape depends on (R85). -/

namespace Sys2Proof.Proofs

open Sys2Proof Sys2Proof.Machine Sys2Proof.Safety

/-! ### The source's products and quotients as shifts -/

/-- A sextet shifted up and cut to a byte is its product with a power of two, modulo 256. -/
theorem setWidth_shiftLeft_eq_ofNat (v : Sextet) (k : Nat) : v.setWidth 8 <<< k = BitVec.ofNat 8 (v.toNat * 2 ^ k) := by
  rw [← BitVec.toNat_inj]
  simp [Nat.shiftLeft_eq]

theorem decStart0_eq (v : Sextet) : decStart0 v = BitVec.ofNat 8 (v.toNat * 4) := setWidth_shiftLeft_eq_ofNat v 2

theorem decStart1_eq (v : Sextet) : decStart1 v = BitVec.ofNat 8 (v.toNat * 16) := setWidth_shiftLeft_eq_ofNat v 4

theorem decStart2_eq (v : Sextet) : decStart2 v = BitVec.ofNat 8 (v.toNat * 64) := setWidth_shiftLeft_eq_ofNat v 6

/-- A sextet shifted down is its quotient by a power of two. -/
theorem setWidth_ushiftRight_eq_ofNat (v : Sextet) (k : Nat) : (v >>> k).setWidth 8 = BitVec.ofNat 8 (v.toNat / 2 ^ k) := by
  rw [← Nat.shiftRight_eq_div_pow, ← BitVec.toNat_ushiftRight]
  exact (BitVec.ofNat_toNat 8 _).symm

theorem decFinish0_eq (b : Byte) (v : Sextet) : decFinish0 b v = b ||| BitVec.ofNat 8 (v.toNat / 16) :=
  congrArg (b ||| ·) (setWidth_ushiftRight_eq_ofNat v 4)

theorem decFinish1_eq (b : Byte) (v : Sextet) : decFinish1 b v = b ||| BitVec.ofNat 8 (v.toNat / 4) :=
  congrArg (b ||| ·) (setWidth_ushiftRight_eq_ofNat v 2)

theorem decFinish2_eq (b : Byte) (v : Sextet) : decFinish2 b v = b ||| BitVec.ofNat 8 v.toNat :=
  congrArg (b ||| ·) (BitVec.ofNat_toNat 8 v).symm

/-! ### Consuming a character, position by position -/

section
variable (v : Sextet) (taint : Bool) {s : State}

theorem decConsume_first (h : s.dec.flag = 0) :
    decConsume v taint s = s.setDec { s.dec with flag := 1, buf0 := decStart0 v, taint := taint } := by
  simp [decConsume, h, decAdvance]

theorem decConsume_second (h : s.dec.flag = 1) :
    decConsume v taint s = s.setDec { s.dec with
      flag := 2, buf0 := decFinish0 s.dec.buf0 v, buf1 := decStart1 v, taint := taint } := by
  simp [decConsume, h, decAdvance]

theorem decConsume_third (h : s.dec.flag = 2) :
    decConsume v taint s = s.setDec { s.dec with
      flag := 3, buf1 := decFinish1 s.dec.buf1 v, buf2 := decStart2 v, taint := taint } := by
  simp [decConsume, h, decAdvance]

end

theorem decAdvance_val (f : Fin 4) : (decAdvance f).val = (f.val + 1) % 4 := Fin.val_add f 1

/-- What consuming a character leaves in the decoder and hands on to be emitted is fixed by the sextet, the taint and the decoder's
state. Of these the sextet reaches the bytes alone: not the counter, stop, the taint or how many bytes there are (R70, R73 to R76). -/
theorem decConsume_determined (v : Sextet) (taint : Bool) (u : DecUnit) :
    ∃ u' bs, (∀ s : State, s.dec = u → decConsume v taint s = (emitGroup taint bs s).setDec u') ∧
      u'.flag = decAdvance u.flag ∧ u'.stop = u.stop ∧ u'.taint = (taint && decide (u.flag ≠ 3)) ∧
      bs.length = if u.flag = 3 then 3 else 0 := by
  match hf : u.flag with
  | 0 =>
    refine ⟨{ u with flag := 1, buf0 := decStart0 v, taint := taint }, [], ?_, rfl, rfl, (Bool.and_true _).symm, rfl⟩
    rintro s rfl
    exact decConsume_first v taint hf
  | 1 =>
    refine ⟨{ u with flag := 2, buf0 := decFinish0 u.buf0 v, buf1 := decStart1 v, taint := taint }, [], ?_, rfl, rfl,
      (Bool.and_true _).symm, rfl⟩
    rintro s rfl
    exact decConsume_second v taint hf
  | 2 =>
    refine ⟨{ u with flag := 3, buf1 := decFinish1 u.buf1 v, buf2 := decStart2 v, taint := taint }, [], ?_, rfl, rfl,
      (Bool.and_true _).symm, rfl⟩
    rintro s rfl
    exact decConsume_third v taint hf
  | 3 =>
    refine ⟨{ DecUnit.reset with stop := u.stop }, [u.buf0, u.buf1, decFinish2 u.buf2 v], ?_, rfl, rfl,
      (Bool.and_false _).symm, rfl⟩
    rintro s rfl
    exact decConsume_last v taint s hf

/-- As many bytes are emitted whether they are given or drawn. -/
theorem length_drawn_or_given {bs : List Byte} {k : Nat} (h : bs.length = k) (taint : Bool) (n : Nat) :
    (if taint then Config.freshBytes n k else bs).length = k := by
  rw [apply_ite List.length, freshBytes_length, h, ite_self]

/-! ### DEC.DATA while stopped, and of the padding character -/

/-- Settles O27: DEC.DATA looks at stop before it looks at the character. -/
theorem decDataIgnoredWhenStopped : Obligations.DecDataIgnoredWhenStopped :=
  fun s d hstop => execDecData_stopped d s hstop

/-- Settles O28: INV answers PAD for `=`. -/
theorem decDataPadStops : Obligations.DecDataPadStops :=
  fun s hstop => execDecData_pad 0x3D#8 s hstop rfl

/-- Settles O58, by induction on the characters: each leaves the state as it is, stopped. -/
theorem stoppedDecoderIgnoresStream : Obligations.StoppedDecoderIgnoresStream := by
  intro s cs hstop
  induction cs with
  | nil => rfl
  | cons c cs ih => exact (runInstrs_cons (decDataIgnoredWhenStopped s c hstop)).trans ih

/-! ### DEC.DATA of a valid character -/

/-- Settles O29: at flag 0 the sextet starts the first byte. -/
theorem decDataFirstCharacter : Obligations.DecDataFirstCharacter := by
  intro s d v hstop hflag hv
  rw [exec_decData, execDecData_valid d v s hstop hv, decConsume_first v _ hflag, decStart0_eq]
  rfl

/-- Settles O30: at flag 1 the sextet completes the first byte and starts the second. -/
theorem decDataSecondCharacter : Obligations.DecDataSecondCharacter := by
  intro s d v hstop hflag hv
  rw [exec_decData, execDecData_valid d v s hstop hv, decConsume_second v _ hflag, decFinish0_eq, decStart1_eq]
  rfl

/-- Settles O31: at flag 2 the sextet completes the second byte and starts the third. -/
theorem decDataThirdCharacter : Obligations.DecDataThirdCharacter := by
  intro s d v hstop hflag hv
  rw [exec_decData, execDecData_valid d v s hstop hv, decConsume_third v _ hflag, decFinish1_eq, decStart2_eq]
  rfl

/-- Settles O32: at flag 3 the group is emitted, its own bytes if it is exact and three draws if it is tainted. -/
theorem decDataFourthCharacter : Obligations.DecDataFourthCharacter := by
  intro s d v hstop hflag hv
  rw [exec_decData, execDecData_valid d v s hstop hv, decConsume_last v _ s hflag, emitGroup_eq, hstop, decFinish2_eq]
  exact ⟨_, _, rfl, length_drawn_or_given rfl _ _, fun htaint => by simp [htaint]⟩

/-! ### DEC.DATA of an invalid character -/

/-- Consuming a character does not read the taint the decoder holds: the taint of the group is given to it. -/
theorem decConsume_setTaint (v : Sextet) (taint b : Bool) (s : State) :
    decConsume v taint (s.setDec { s.dec with taint := b }) = decConsume v taint s := by
  simp only [decConsume, State.setDec_dec, emitGroup_eq]
  split <;> rfl

/-- Settles O34: the character that ALPHA gives for the unspecified sextet is valid and stands for it. -/
theorem invalidCharacterActsAsSomeValid : Obligations.InvalidCharacterActsAsSomeValid := by
  intro s d hstop hd
  let v := Config.freeSextet s.draws
  refine ⟨alpha v, v, inv_alpha v, ?_⟩
  calc execDecData d s
      = .next (decConsume v true (drawSextet s).2) := execDecData_invalid d s hstop hd
    _ = .next (decConsume v true ((drawSextet s).2.setDec { s.dec with taint := true })) :=
        congrArg _ (decConsume_setTaint v true true (drawSextet s).2).symm
    _ = execDecData (alpha v) { s with dec := { s.dec with taint := true }, draws := s.draws + 1 } :=
        (execDecData_valid (alpha v) v ((drawSextet s).2.setDec { s.dec with taint := true }) hstop (inv_alpha v)).symm

/-- Settles O35: the sextet is drawn first, and so the three bytes of flag 3 are the draws after it. -/
theorem invalidCharacterShape : Obligations.InvalidCharacterShape := by
  intro s d hstop hd
  refine ⟨_, execDecData_invalid d s hstop hd, sameButDecoder_decConsume _ true (drawSextet s).2, ?_⟩
  by_cases hf : s.dec.flag = 3
  · rw [decConsume_last _ true (drawSextet s).2 hf, emitGroup_tainted]
    refine ⟨by rw [hf]; rfl, hstop, fun h => absurd hf h, fun _ => ⟨?_, s.draws + 1, Nat.le_succ _, rfl, rfl⟩⟩
    simp [hstop, DecUnit.reset]
  · obtain ⟨b0, b1, b2, h⟩ := decConsume_before_last (drawSextet s).1 true (drawSextet s).2 hf
    rw [h]
    exact ⟨decAdvance_val s.dec.flag, hstop, fun _ => ⟨rfl, rfl⟩, fun h => absurd h hf⟩

/-! ### DEC.END and DEC.CLR -/

/-- R78's count of tail bytes as one expression. -/
theorem tailLength_eq (m : TailMode) (f : Fin 4) :
    tailLength m f = if f.val = 0 then 0 else if m = .truncate then f.val - 1 else 3 := by
  simp only [tailLength, Fin.ext_iff, Fin.val_zero]
  cases m <;> rfl

/-- Settles O37: DEC.END emits the buffer's first n bytes, or n draws in a tainted group. -/
theorem decEndFinalizes : Obligations.DecEndFinalizes := by
  intro s n
  have hn : tailLength s.tailMode s.dec.flag = n := tailLength_eq _ _
  rw [exec_decEnd, execDecEnd_eq, hn]
  exact ⟨_, _, rfl, length_drawn_or_given (hn ▸ length_tail _ _ _ _ _) _ _, fun htaint => by simp [htaint]⟩

/-- DEC.END of an exact group emits the buffer's own bytes and draws nothing (R78). -/
theorem exec_decEnd_exact {s : State} (htaint : s.dec.taint = false) :
    exec .decEnd s =
      .next (resetDec (emitDec ([s.dec.buf0, s.dec.buf1, s.dec.buf2].take (tailLength s.tailMode s.dec.flag)) s)) := by
  rw [exec_decEnd, execDecEnd_eq, htaint]
  rfl

/-- Settles O38: in TRUNCATE mode the tail at flag f is the first f - 1 bytes. -/
theorem decEndTruncateTail : Obligations.DecEndTruncateTail := by
  intro s hmode htaint
  exact ⟨_, exec_decEnd_exact htaint, fun hf => by simp [hmode, hf, tailLength], fun hf => by simp [hmode, hf, tailLength],
    fun hf => by simp [hmode, hf, tailLength]⟩

/-- Settles O39: in FULL mode the tail is three bytes at every flag but 0. -/
theorem decEndFullTail : Obligations.DecEndFullTail := by
  intro s hmode htaint
  exact ⟨_, exec_decEnd_exact htaint, fun hf => by simp [hf, tailLength], fun hf => by simp [hmode, hf, tailLength]⟩

/-- Settles O40: DEC.CLR is the decoder's reset alone. -/
theorem decClrDiscards : Obligations.DecClrDiscards := fun _ => rfl

/-! ### A tainted group's buffer never shows -/

/-- The state with other bytes in the decoder's buffer. -/
def withBuffer (b0 b1 b2 : Byte) (s : State) : State := s.setDec { s.dec with buf0 := b0, buf1 := b1, buf2 := b2 }

@[simp] theorem withBuffer_taint (b0 b1 b2 : Byte) (s : State) : (withBuffer b0 b1 b2 s).dec.taint = s.dec.taint := rfl

theorem sameButTaintedBuffer_refl (s : State) : sameButTaintedBuffer s s := ⟨rfl, fun _ => rfl⟩

theorem sameButTaintedBuffer_withBuffer {s : State} (h : s.dec.taint = true) (b0 b1 b2 : Byte) :
    sameButTaintedBuffer s (withBuffer b0 b1 b2 s) :=
  ⟨rfl, fun h' => by simp [h] at h'⟩

theorem sameButTaintedBuffer_decOut {s t : State} (h : sameButTaintedBuffer s t) : s.decOut = t.decOut := by
  obtain ⟨ht, -⟩ := h
  rw [ht]

/-- Two states that differ in the buffer of a tainted group alone are one state, or one state with two buffers. -/
theorem sameButTaintedBuffer_cases {s t : State} (h : sameButTaintedBuffer s t) :
    t = s ∨ (s.dec.taint = true ∧ ∃ b0 b1 b2, t = withBuffer b0 b1 b2 s) := by
  obtain ⟨ht, hexact⟩ := h
  cases htaint : s.dec.taint with
  | false => exact .inl (hexact htaint)
  | true => exact .inr ⟨rfl, _, _, _, ht⟩

/-- A tainted group's buffer is not emitted: it is overwritten in part, or dropped at the last position (R76, R77). -/
theorem decConsume_withBuffer (v : Sextet) (b0 b1 b2 : Byte) (s : State) :
    sameButTaintedBuffer (decConsume v true s) (decConsume v true (withBuffer b0 b1 b2 s)) := by
  by_cases hf : s.dec.flag = 3
  · rw [decConsume_last v true s hf, decConsume_last v true (withBuffer b0 b1 b2 s) hf, emitGroup_tainted, emitGroup_tainted]
    exact sameButTaintedBuffer_refl _
  · obtain ⟨c0, c1, c2, hs⟩ := decConsume_before_last v true s hf
    obtain ⟨d0, d1, d2, ht⟩ := decConsume_before_last v true (withBuffer b0 b1 b2 s) hf
    rw [hs, ht]
    exact sameButTaintedBuffer_withBuffer (s := s.setDec _) rfl d0 d1 d2

theorem execDecData_withBuffer (d : Byte) {s : State} (htaint : s.dec.taint = true) (b0 b1 b2 : Byte) :
    ∃ s' t', execDecData d s = .next s' ∧ execDecData d (withBuffer b0 b1 b2 s) = .next t' ∧ sameButTaintedBuffer s' t' := by
  obtain ⟨hs, h⟩ | ⟨hs, hd, h⟩ | ⟨v, hs, hd, h⟩ | ⟨hs, hd, h⟩ := execDecData_cases d s
  · exact ⟨_, _, h, execDecData_stopped d _ hs, sameButTaintedBuffer_withBuffer htaint b0 b1 b2⟩
  · exact ⟨_, _, h, execDecData_pad d _ hs hd, 
      sameButTaintedBuffer_withBuffer (s := s.setDec { s.dec with stop := true }) htaint b0 b1 b2⟩
  · refine ⟨_, _, h, execDecData_valid d v _ hs hd, ?_⟩
    rw [withBuffer_taint, htaint]
    exact decConsume_withBuffer v b0 b1 b2 s
  · exact ⟨_, _, h, execDecData_invalid d _ hs hd, decConsume_withBuffer _ b0 b1 b2 (drawSextet s).2⟩

/-- Every command takes a tainted group's two buffers to states that differ so at most. -/
theorem exec_withBuffer (i : Instr) {s : State} (htaint : s.dec.taint = true) (b0 b1 b2 : Byte) :
    ∃ s' t', exec i s = .next s' ∧ exec i (withBuffer b0 b1 b2 s) = .next t' ∧ sameButTaintedBuffer s' t' := by
  cases hi : i.unit with
  | encoder =>
    obtain ⟨u, cs, h⟩ := exec_encoder_determined hi s.enc
    exact ⟨_, _, h s rfl, h (withBuffer b0 b1 b2 s) rfl,
      sameButTaintedBuffer_withBuffer (s := withEncSide u (s.encOut ++ cs) s) htaint b0 b1 b2⟩
  | decoder =>
    obtain ⟨d, rfl⟩ | rfl | rfl := decoder_command hi
    · exact execDecData_withBuffer d htaint b0 b1 b2
    · refine ⟨_, _, execDecEnd_eq s, execDecEnd_eq (withBuffer b0 b1 b2 s), ?_⟩
      simp only [withBuffer_taint, htaint, if_true]
      exact sameButTaintedBuffer_refl _
    · exact ⟨_, _, rfl, rfl, sameButTaintedBuffer_refl (resetDec s)⟩

/-- Settles O36: states that differ so have equal outputs, whichever command leads to them. -/
theorem taintedBufferNeverShows : Obligations.TaintedBufferNeverShows := by
  intro i s t h
  obtain rfl | ⟨htaint, b0, b1, b2, rfl⟩ := sameButTaintedBuffer_cases h
  · obtain ⟨t', ht'⟩ := exec_withPort i t
    exact ⟨_, _, ht' t.port, ht' t.port, rfl, sameButTaintedBuffer_refl _⟩
  · obtain ⟨s', t', hs, ht, h'⟩ := exec_withBuffer i htaint b0 b1 b2
    exact ⟨s', t', hs, ht, sameButTaintedBuffer_decOut h', h'⟩

/-! ### The shape of a DEC command -/

/-- From s₁ to t₁ and from s₂ to t₂ the decoder does alike: equally many bytes and the same counter, stop and taint, and the same bytes and
buffer if the first draws nothing (R85). -/
def decodesAlike (s₁ t₁ s₂ t₂ : State) : Prop :=
  ∃ bs₁ bs₂, t₁.decOut = s₁.decOut ++ bs₁ ∧ t₂.decOut = s₂.decOut ++ bs₂ ∧ bs₁.length = bs₂.length ∧
    t₁.dec.flag = t₂.dec.flag ∧ t₁.dec.stop = t₂.dec.stop ∧ t₁.dec.taint = t₂.dec.taint ∧
    (t₁.draws = s₁.draws → t₁.dec = t₂.dec ∧ bs₁ = bs₂)

/-- A command that only writes the decoder emits no byte. -/
theorem decodesAlike_setDec (u : DecUnit) (s₁ s₂ : State) : decodesAlike s₁ (s₁.setDec u) s₂ (s₂.setDec u) :=
  ⟨[], [], (List.append_nil _).symm, (List.append_nil _).symm, rfl, rfl, rfl, rfl, fun _ => ⟨rfl, rfl⟩⟩

/-- Emitting the same group: equally many draws if it is tainted, and the same bytes if not. -/
theorem decodesAlike_emitGroup (taint : Bool) (bs : List Byte) (u : DecUnit) (s₁ s₂ : State) :
    decodesAlike s₁ ((emitGroup taint bs s₁).setDec u) s₂ ((emitGroup taint bs s₂).setDec u) := by
  rw [emitGroup_eq, emitGroup_eq]
  cases taint with
  | false => exact ⟨_, _, rfl, rfl, rfl, rfl, rfl, rfl, fun _ => ⟨rfl, rfl⟩⟩
  | true =>
    refine ⟨_, _, rfl, rfl, by simp, rfl, rfl, rfl, fun hdraws => ⟨rfl, ?_⟩⟩
    have hnone : bs.length = 0 := Nat.add_eq_left.mp hdraws
    simp [hnone]

/-- Two drawn sextets may differ, and so may the buffers they fill, but the shape does not depend on them (R77, R85). -/
theorem decodesAlike_invalid (v₁ v₂ : Sextet) {s₁ s₂ : State} (hdec : s₁.dec = s₂.dec) :
    decodesAlike s₁ (decConsume v₁ true (drawSextet s₁).2) s₂ (decConsume v₂ true (drawSextet s₂).2) := by
  obtain ⟨u₁, bs₁, h₁, hflag₁, hstop₁, htaint₁, hlen₁⟩ := decConsume_determined v₁ true s₂.dec
  obtain ⟨u₂, bs₂, h₂, hflag₂, hstop₂, htaint₂, hlen₂⟩ := decConsume_determined v₂ true s₂.dec
  rw [h₁ (drawSextet s₁).2 hdec, h₂ (drawSextet s₂).2 rfl, emitGroup_tainted, emitGroup_tainted]
  refine ⟨_, _, rfl, rfl, ?_, hflag₁.trans hflag₂.symm, hstop₁.trans hstop₂.symm, htaint₁.trans htaint₂.symm, fun hdraws => ?_⟩
  · rw [freshBytes_length, freshBytes_length, hlen₁, hlen₂]
  · simp [Nat.add_assoc] at hdraws

theorem execDecData_alike (d : Byte) {s₁ s₂ : State} (hdec : s₁.dec = s₂.dec) :
    ∃ t₁ t₂, execDecData d s₁ = .next t₁ ∧ execDecData d s₂ = .next t₂ ∧ decodesAlike s₁ t₁ s₂ t₂ := by
  obtain ⟨hs, h⟩ | ⟨hs, hd, h⟩ | ⟨v, hs, hd, h⟩ | ⟨hs, hd, h⟩ := execDecData_cases d s₂
  · refine ⟨s₁.setDec s₁.dec, _, execDecData_stopped d s₁ (hdec ▸ hs), h, ?_⟩
    rw [hdec]
    exact decodesAlike_setDec s₂.dec s₁ s₂
  · refine ⟨_, _, execDecData_pad d s₁ (hdec ▸ hs) hd, h, ?_⟩
    rw [hdec]
    exact decodesAlike_setDec _ s₁ s₂
  · obtain ⟨u, bs, hconsume, -⟩ := decConsume_determined v s₂.dec.taint s₂.dec
    refine ⟨_, _, execDecData_valid d v s₁ (hdec ▸ hs) hd, h, ?_⟩
    rw [hconsume s₂ rfl, hdec, hconsume s₁ hdec]
    exact decodesAlike_emitGroup _ _ _ s₁ s₂
  · exact ⟨_, _, execDecData_invalid d s₁ (hdec ▸ hs) hd, h, decodesAlike_invalid _ _ hdec⟩

/-- DEC.DATA consumes the same sextet, or draws one; DEC.END emits the same group; DEC.CLR emits nothing. -/
theorem exec_decoder_alike {i : Instr} (hi : i.unit = .decoder) {s₁ s₂ : State} (hdec : s₁.dec = s₂.dec)
    (hmode : s₁.tailMode = s₂.tailMode) :
    ∃ t₁ t₂, exec i s₁ = .next t₁ ∧ exec i s₂ = .next t₂ ∧ decodesAlike s₁ t₁ s₂ t₂ := by
  obtain ⟨d, rfl⟩ | rfl | rfl := decoder_command hi
  · exact execDecData_alike d hdec
  · refine ⟨_, _, rfl, rfl, ?_⟩
    rw [hdec, hmode]
    exact decodesAlike_emitGroup _ _ DecUnit.reset s₁ s₂
  · exact ⟨_, _, rfl, rfl, decodesAlike_setDec DecUnit.reset s₁ s₂⟩

/-- Settles O41: what the command does alike from both states is the shape, and the bytes and buffer where nothing is drawn. -/
theorem decoderShapeIsDetermined : Obligations.DecoderShapeIsDetermined := by
  intro i s₁ s₂ hi hdec hmode
  obtain ⟨t₁, t₂, h₁, h₂, bs₁, bs₂, halike⟩ := exec_decoder_alike hi hdec hmode
  exact ⟨t₁, t₂, bs₁, bs₂, h₁, h₂, halike⟩

/-! ### The bytes of a stream -/

/-- From s to t the decoder has taken k characters, none of them the pad: it has appended three bytes for each group completed, and its
counter has advanced k times, with stop clear and the tail mode kept (R82). -/
def tookChars (k : Nat) (s t : State) : Prop :=
  ∃ bs, t.decOut = s.decOut ++ bs ∧ bs.length = 3 * ((s.dec.flag.val + k) / 4) ∧
    t.dec.flag.val = (s.dec.flag.val + k) % 4 ∧ t.dec.stop = false ∧ t.tailMode = s.tailMode

theorem tookChars_zero {s : State} (hstop : s.dec.stop = false) : tookChars 0 s s := by
  have hflag : s.dec.flag.val < 4 := s.dec.flag.isLt
  exact ⟨[], (List.append_nil _).symm, by rw [List.length_nil]; omega, by omega, hstop, rfl⟩

theorem tookChars_stop {k : Nat} {s t : State} (h : tookChars k s t) : t.dec.stop = false := by
  obtain ⟨-, -, -, -, hstop, -⟩ := h
  exact hstop

theorem tookChars_trans {j k : Nat} {r s t : State} (h : tookChars j r s) (h' : tookChars k s t) : tookChars (j + k) r t := by
  obtain ⟨bs, hout, hlen, hflag, -, hmode⟩ := h
  obtain ⟨bs', hout', hlen', hflag', hstop', hmode'⟩ := h'
  refine ⟨bs ++ bs', by rw [hout', hout, List.append_assoc], ?_, by omega, hstop', hmode'.trans hmode⟩
  rw [List.length_append]
  omega

/-- Consuming a character, whatever its sextet and taint (R73 to R76). -/
theorem decConsume_tookChars (v : Sextet) (taint : Bool) {s : State} (hstop : s.dec.stop = false) :
    tookChars 1 s (decConsume v taint s) := by
  obtain ⟨u, bs, h, hflag, hstop', -, hlen⟩ := decConsume_determined v taint s.dec
  rw [h s rfl, emitGroup_eq]
  refine ⟨_, rfl, (length_drawn_or_given rfl _ _).trans (hlen.trans ?_),
    (congrArg Fin.val hflag).trans (decAdvance_val _), hstop'.trans hstop, rfl⟩
  have hlt : s.dec.flag.val < 4 := s.dec.flag.isLt
  have hlast : s.dec.flag = 3 ↔ s.dec.flag.val = 3 := Fin.ext_iff
  split_ifs <;> omega

/-- Invalid characters count as valid ones do (R77, R82). -/
theorem exec_decData_tookChars {c : Byte} {s : State} (hc : c ≠ 0x3D#8) (hstop : s.dec.stop = false) :
    ∃ t, exec (.decData c) s = .next t ∧ tookChars 1 s t := by
  cases hclass : inv c with
  | pad => exact absurd ((inv_eq_pad_iff c).mp hclass) hc
  | valid v => exact ⟨_, execDecData_valid c v s hstop hclass, decConsume_tookChars v _ hstop⟩
  | invalid =>
    exact ⟨_, execDecData_invalid c s hstop hclass, decConsume_tookChars _ true (s := (drawSextet s).2) hstop⟩

/-- R82's law of k characters, from any position. -/
theorem runInstrs_decChars {cs : List Byte} (hcs : ∀ c ∈ cs, c ≠ 0x3D#8) {s : State} (hstop : s.dec.stop = false) :
    ∃ t, runInstrs (decChars cs) s = .next t ∧ tookChars cs.length s t := by
  induction cs generalizing s with
  | nil => exact ⟨s, rfl, tookChars_zero hstop⟩
  | cons c cs ih =>
    obtain ⟨hc, hrest⟩ := List.forall_mem_cons.mp hcs
    obtain ⟨s', hrun, hs'⟩ := exec_decData_tookChars hc hstop
    obtain ⟨t, hrun', ht⟩ := ih hrest (tookChars_stop hs')
    refine ⟨t, (runInstrs_cons hrun).trans hrun', ?_⟩
    rw [List.length_cons, Nat.add_comm]
    exact tookChars_trans hs' ht

theorem decChars_append (cs ds : List Byte) : decChars (cs ++ ds) = decChars cs ++ decChars ds := List.map_append

/-- The first pad stops the decoder, and the characters after it are ignored (R71, R72). -/
theorem runInstrs_decChars_pad (cs : List Byte) {s : State} (hstop : s.dec.stop = false) :
    runInstrs (decChars (0x3D#8 :: cs)) s = .next (s.setDec { s.dec with stop := true }) :=
  (runInstrs_cons (decDataPadStops s hstop)).trans (stoppedDecoderIgnoresStream _ cs rfl)

/-- What is left of a text from its first pad on does no more than stop the decoder. -/
theorem runInstrs_decChars_dropWhile (cs : List Byte) {s : State} (hstop : s.dec.stop = false) :
    ∃ b, runInstrs (decChars (cs.dropWhile fun c => c ≠ 0x3D#8)) s = .next (s.setDec { s.dec with stop := b }) := by
  match hrest : cs.dropWhile fun c => c ≠ 0x3D#8 with
  | [] => exact ⟨s.dec.stop, rfl⟩
  | c :: rest =>
    have hpad : c = 0x3D#8 := by
      have hhead := List.head?_dropWhile_not (fun c : Byte => decide (c ≠ 0x3D#8)) cs
      rw [hrest] at hhead
      simpa using hhead
    rw [hpad]
    exact ⟨true, runInstrs_decChars_pad rest hstop⟩

/-- DEC.END appends as many bytes as its tail length says (R78). -/
theorem exec_decEnd_length (s : State) :
    ∃ t bs, exec .decEnd s = .next t ∧ t.decOut = s.decOut ++ bs ∧ bs.length = tailLength s.tailMode s.dec.flag :=
  ⟨_, _, execDecEnd_eq s, rfl, length_drawn_or_given (length_tail _ _ _ _ _) _ _⟩

/-- A stream's bytes: three for each whole group before the first pad, and the tail of the last. -/
theorem runInstrs_decStream (s : State) (cs : List Byte) :
    let n := (cs.takeWhile fun c => c ≠ 0x3D#8).length
    ∃ t bs f, runInstrs (decStream cs) s = .next t ∧ t.decOut = s.decOut ++ bs ∧
      bs.length = 3 * (n / 4) + tailLength s.tailMode f ∧ f.val = n % 4 := by
  intro n
  obtain ⟨t, hrun, bs, hout, hlen, hflag, hstop, hmode⟩ :=
    runInstrs_decChars (cs := cs.takeWhile fun c => c ≠ 0x3D#8) (s := resetDec s)
      (fun c hc => of_decide_eq_true (List.mem_takeWhile_imp hc :)) rfl
  obtain ⟨b, hrest⟩ := runInstrs_decChars_dropWhile cs hstop
  obtain ⟨u, tail, hend, htail, htailLen⟩ := exec_decEnd_length (t.setDec { t.dec with stop := b })
  have hchars : runInstrs (decChars cs) (resetDec s) = .next (t.setDec { t.dec with stop := b }) := by
    rw [← List.takeWhile_append_dropWhile (p := fun c : Byte => decide (c ≠ 0x3D#8)) (l := cs), decChars_append]
    exact (runInstrs_append hrun).trans hrest
  have hzero : (resetDec s).dec.flag.val = 0 := rfl
  rw [hzero, Nat.zero_add] at hlen hflag
  refine ⟨u, bs ++ tail, t.dec.flag, (runInstrs_cons (decClrDiscards s)).trans ((runInstrs_append hchars).trans
    (runInstrs_cons hend)), ?_, ?_, hflag⟩
  · rw [htail, State.setDec_decOut, hout, resetDec_decOut, List.append_assoc]
  · rw [List.length_append, hlen, htailLen, State.setDec_tailMode, hmode]
    rfl

/-- Settles O57: the stream's tail is that of the position its characters before the first pad lead to; and from the reset state the
counter starts at 0. -/
theorem decoderLengthLaw : Obligations.DecoderLengthLaw := by
  constructor
  · intro s cs n
    obtain ⟨t, bs, f, hrun, hout, hlen, hf⟩ := runInstrs_decStream s cs
    refine ⟨t, bs, hrun, hout, hlen.trans ?_⟩
    rw [tailLength_eq, hf]
    cases s.tailMode with
    | truncate => simp only [if_true]; split_ifs <;> omega
    | full => rfl
  · intro s cs hreset hcs
    obtain ⟨t, hrun, bs, hout, hlen, hflag, -⟩ := runInstrs_decChars hcs (s := s) (by rw [hreset]; rfl)
    have hzero : s.dec.flag.val = 0 := by rw [hreset]; rfl
    rw [hzero, Nat.zero_add] at hlen hflag
    exact ⟨t, bs, hrun, hout, hlen, hflag⟩

/-! ### Decoding the encoder's sextets -/

/-- The four sextets of a group's 24 bits, put side by side, are those bits (R29). -/
theorem append_sextets (g : BitVec 24) :
    g.extractLsb' 18 6 ++ g.extractLsb' 12 6 ++ g.extractLsb' 6 6 ++ g.extractLsb' 0 6 = g := by
  have htop : g.extractLsb' 18 6 ++ g.extractLsb' 12 6 = g.extractLsb' 12 12 :=
    BitVec.extractLsb'_append_extractLsb'_eq_extractLsb' rfl
  have hupper : g.extractLsb' 12 12 ++ g.extractLsb' 6 6 = g.extractLsb' 6 18 :=
    BitVec.extractLsb'_append_extractLsb'_eq_extractLsb' rfl
  have hall : g.extractLsb' 6 18 ++ g.extractLsb' 0 6 = g.extractLsb' 0 24 :=
    BitVec.extractLsb'_append_extractLsb'_eq_extractLsb' rfl
  rw [htop, hupper, hall, BitVec.extractLsb'_eq_self]

section
variable (b0 b1 b2 : Byte)

/-- The sextets the encoder makes of three bytes, put side by side, are the bytes side by side (R29). -/
theorem append_encIndexes :
    encIndex0 b0 ++ encIndex1 (encCarry0 b0) b1 ++ encIndex2 (encCarry1 b1) b2 ++ encIndex3 b2 = b0 ++ b1 ++ b2 := by
  rw [← encGroup_first b0 b1 b2, ← encGroup_second b0 b1 b2, ← encGroup_third b0 b1 b2, ← encGroup_fourth b0 b1 b2]
  exact append_sextets _

theorem decodedByte_first : decFinish0 (decStart0 (encIndex0 b0)) (encIndex1 (encCarry0 b0) b1) = b0 := by
  rw [← decGroup_first _ _ (encIndex2 (encCarry1 b1) 0#8) (encIndex3 0#8), append_encIndexes,
    BitVec.extractLsb'_append_eq_of_le (by omega)]
  exact BitVec.extractLsb'_append_eq_left

theorem decodedByte_second :
    decFinish1 (decStart1 (encIndex1 (encCarry0 b0) b1)) (encIndex2 (encCarry1 b1) b2) = b1 := by
  rw [← decGroup_second (encIndex0 b0) _ _ (encIndex3 b2), append_encIndexes, BitVec.extractLsb'_append_eq_of_le (by omega)]
  exact BitVec.extractLsb'_append_eq_right

theorem decodedByte_third : decFinish2 (decStart2 (encIndex2 (encCarry1 b1) b2)) (encIndex3 b2) = b2 := by
  rw [← decGroup_third (encIndex0 0#8) (encIndex1 (encCarry0 0#8) b1), append_encIndexes]
  exact BitVec.extractLsb'_append_eq_right

/-- A carry alone is the index that a zero byte after it would complete, so a partial group decodes as one filled up with zeros. -/
theorem encIndex1_zero (p : Sextet) : encIndex1 p 0#8 = p := by simp [encIndex1]

theorem encIndex2_zero (p : Sextet) : encIndex2 p 0#8 = p := by simp [encIndex2]

theorem decodedByte_first_of_one : decFinish0 (decStart0 (encIndex0 b0)) (encCarry0 b0) = b0 := by
  rw [← encIndex1_zero (encCarry0 b0)]
  exact decodedByte_first b0 0#8

theorem decodedByte_second_of_two : decFinish1 (decStart1 (encIndex1 (encCarry0 b0) b1)) (encCarry1 b1) = b1 := by
  rw [← encIndex2_zero (encCarry1 b1)]
  exact decodedByte_second b0 b1 0#8

/-- The second byte that the carry of a lone first byte starts is zero (R83, in FULL mode). -/
theorem decStart1_encCarry0 : decStart1 (encCarry0 b0) = 0#8 := by
  have h := decodedByte_second b0 0#8 0#8
  rw [encIndex1_zero] at h
  simpa [decFinish1, encIndex2, encCarry1] using h

/-- The third byte that the carry of two bytes starts is zero (R83, in FULL mode). -/
theorem decStart2_encCarry1 : decStart2 (encCarry1 b1) = 0#8 := by
  have h := decodedByte_third b1 0#8
  rw [encIndex2_zero] at h
  simpa [decFinish2, encIndex3] using h

end

/-! ### The round trip -/

/-- The text of a byte sequence, by groups of three bytes and a last one of one or two (R29, R60 to R64). -/
def encodedText : List Byte → List Byte
  | [] => []
  | [b0] => [alpha (encIndex0 b0), alpha (encCarry0 b0), 0x3D#8, 0x3D#8]
  | [b0, b1] => [alpha (encIndex0 b0), alpha (encIndex1 (encCarry0 b0) b1), alpha (encCarry1 b1), 0x3D#8]
  | b0 :: b1 :: b2 :: bs =>
    alpha (encIndex0 b0) :: alpha (encIndex1 (encCarry0 b0) b1) :: alpha (encIndex2 (encCarry1 b1) b2) ::
      alpha (encIndex3 b2) :: encodedText bs

/-- The bytes and ENC.END after them put their text on ENC_OUT, from the start of any group. -/
theorem runInstrs_encBytes_end (bs : List Byte) {s : State} (hflag : s.enc.flag = 0) :
    runInstrs (encBytes bs ++ [.encEnd]) s = .next (withEncSide EncUnit.reset (s.encOut ++ encodedText bs) s) := by
  induction bs using encodedText.induct generalizing s with
  | case1 =>
    refine (runInstrs_cons (encEndFinalizes s)).trans ?_
    rw [hflag]
    rfl
  | case2 b0 =>
    refine (runInstrs_cons (exec_encData_first b0 hflag)).trans ((runInstrs_cons (encEndFinalizes _)).trans ?_)
    simp [withEncSide, EncUnit.reset, encodedText, List.replicate]
  | case3 b0 b1 =>
    refine (runInstrs_cons (exec_encData_first b0 hflag)).trans ((runInstrs_cons (exec_encData_second b1 rfl)).trans
      ((runInstrs_cons (encEndFinalizes _)).trans ?_))
    simp [withEncSide, EncUnit.reset, encodedText]
  | case4 b0 b1 b2 bs ih =>
    refine (runInstrs_cons (exec_encData_first b0 hflag)).trans ((runInstrs_cons (exec_encData_second b1 rfl)).trans
      ((runInstrs_cons (exec_encData_third b2 rfl)).trans ((ih rfl).trans ?_)))
    simp [withEncSide, encodedText]

/-- The bytes a decoder gives back: the bytes themselves, and in FULL mode the zero bytes that fill up the last group (R80, R83). -/
def decodedText (m : TailMode) (bs : List Byte) : List Byte :=
  match m with
  | .truncate => bs
  | .full => bs ++ List.replicate (if bs.length % 3 = 0 then 0 else 3 - bs.length % 3) 0x00#8

/-- A whole group in front changes nothing in how the last group is filled up. -/
theorem decodedText_group (m : TailMode) (b0 b1 b2 : Byte) (bs : List Byte) :
    decodedText m (b0 :: b1 :: b2 :: bs) = [b0, b1, b2] ++ decodedText m bs := by
  cases m with
  | truncate => rfl
  | full =>
    have hmod : (b0 :: b1 :: b2 :: bs).length % 3 = bs.length % 3 := Nat.add_mod_right bs.length 3
    rw [decodedText, hmod]
    rfl

/-- After the pads of a partial group that holds no invalid character, DEC.END emits the tail of its buffer. -/
theorem runInstrs_decChars_pad_end (f : Fin 4) (b0 b1 b2 : Byte) (cs : List Byte) (s : State) :
    runInstrs (decChars (0x3D#8 :: cs) ++ [.decEnd]) (s.setDec (exactGroup f b0 b1 b2)) =
      .next (resetDec (emitDec ([b0, b1, b2].take (tailLength s.tailMode f)) s)) :=
  (runInstrs_append (runInstrs_decChars_pad cs rfl)).trans (runInstrs_cons (exec_decEnd_exact rfl))

/-- The characters of a text, from an empty group, and DEC.END after them put the text's bytes on DEC_OUT. -/
theorem runInstrs_decChars_end (bs : List Byte) (s : State) :
    runInstrs (decChars (encodedText bs) ++ [.decEnd]) (s.setDec (exactGroup 0 0#8 0#8 0#8)) =
      .next (resetDec (emitDec (decodedText s.tailMode bs) s)) := by
  induction bs using encodedText.induct generalizing s with
  | case1 =>
    refine (runInstrs_cons (exec_decEnd_exact rfl)).trans ?_
    cases h : s.tailMode <;> rfl
  | case2 b0 =>
    refine (runInstrs_cons (exec_decData_first (inv_alpha _) _ _ _ s)).trans
      ((runInstrs_cons (exec_decData_second (inv_alpha _) _ _ _ s)).trans ((runInstrs_decChars_pad_end _ _ _ _ _ s).trans ?_))
    rw [decodedByte_first_of_one, decStart1_encCarry0]
    cases h : s.tailMode <;> rfl
  | case3 b0 b1 =>
    refine (runInstrs_cons (exec_decData_first (inv_alpha _) _ _ _ s)).trans
      ((runInstrs_cons (exec_decData_second (inv_alpha _) _ _ _ s)).trans
        ((runInstrs_cons (exec_decData_third (inv_alpha _) _ _ _ s)).trans ((runInstrs_decChars_pad_end _ _ _ _ _ s).trans ?_)))
    rw [decodedByte_first, decodedByte_second_of_two, decStart2_encCarry1]
    cases h : s.tailMode <;> rfl
  | case4 b0 b1 b2 bs ih =>
    have hgroup := runInstrs_decChars_group (inv_alpha (encIndex0 b0)) (inv_alpha (encIndex1 (encCarry0 b0) b1))
      (inv_alpha (encIndex2 (encCarry1 b1) b2)) (inv_alpha (encIndex3 b2)) 0#8 0#8 0#8 s
    rw [decodedByte_first, decodedByte_second, decodedByte_third] at hgroup
    refine (runInstrs_append (js := decChars (encodedText bs) ++ [.decEnd]) hgroup).trans ((ih _).trans ?_)
    rw [decodedText_group]
    simp [emitDec, resetDec, State.setDec]

/-- Settles O59: the stream puts its text on ENC_OUT, and the text's characters put its bytes on DEC_OUT. -/
theorem encodeDecodeRoundTrip : Obligations.EncodeDecodeRoundTrip := by
  intro s r bs
  exact ⟨_, encodedText bs, _, (runInstrs_cons (encClrDiscards s)).trans (runInstrs_encBytes_end bs rfl), rfl,
    (runInstrs_cons (decClrDiscards r)).trans (runInstrs_decChars_end bs r), rfl⟩

end Sys2Proof.Proofs
end

