-- ==== Sys2Proof/Proofs/Exceptions.lean ====
section
/-! PROOFS. The statement of spec 60_exceptions.md: no command has a fault or a refusal (R86). -/

namespace Sys2Proof.Proofs

/-- Settles O42: an ENC command completes within the encoder's frame, and a DEC command within the decoder's. -/
theorem everyCommandCompletes : Obligations.EveryCommandCompletes := by
  intro i s
  cases hi : i.unit with
  | encoder =>
    obtain ⟨t, ht, -⟩ := exec_encoder_frame hi s
    exact ⟨t, ht⟩
  | decoder =>
    obtain ⟨t, ht, -⟩ := exec_decoder_frame hi s
    exact ⟨t, ht⟩

end Sys2Proof.Proofs
end

