-- ==== Sys2Proof/Proofs/ResetHazards.lean ====
section
/-! PROOFS. The statements of spec 70_reset_and_hazards.md: what RST does (R95), the ways to a unit's reset state (R97), the launch from
power-on (R98), and the host's duty at the port (R99 item 1). -/

namespace Sys2Proof.Proofs

open Sys2Proof Sys2Proof.Machine Sys2Proof.Safety

/-! ### A step at each kind of port -/

theorem step_idle {s : State} (hp : s.port = []) : step s = .next s := by
  simp [step, takeEvent, hp]

theorem step_rst {s : State} {rest : List PortEvent} (hp : s.port = .rst :: rest) :
    step s = .next (applyRst { s with port := rest }) := by
  simp [step, takeEvent, hp]

theorem exec_port {i : Instr} {s t : State} (h : exec i s = .next t) : t.port = s.port := by
  obtain ⟨t', h'⟩ := exec_withPort i s
  cases h.symm.trans (h' s.port)
  rfl

/-- A step only takes events off the front of the port (log entry 1). -/
theorem step_port_suffix {s t : State} (h : step s = .next t) : t.port <:+ s.port := by
  obtain ⟨-, rfl⟩ | ⟨rest, hp, rfl⟩ | ⟨w, rest, i, hp, -, hi⟩ := step_cases h
  · exact List.suffix_rfl
  · rw [hp]
    exact List.suffix_cons _ _
  · rw [hp, exec_port hi]
    exact List.suffix_cons _ _

/-! ### A host that keeps its first duty -/

/-- A word with OP below 011 spells a command (R43, R46). -/
theorem decode_of_wordWellFormed {w : CmdWord} (h : wordWellFormed w = true) : ∃ i, decode w = .ok i := by
  have hrows : ∀ op : BitVec 3, op.toNat < 3 → op = 0b000#3 ∨ op = 0b001#3 ∨ op = 0b010#3 := by decide
  obtain hop | hop | hop := hrows (opField w) (of_decide_eq_true h) <;> simp [decode, hop]

theorem portObeys_of_suffix {s t : State} (hs : portObeys s) (h : t.port <:+ s.port) : portObeys t :=
  fun w hw => hs w (h.subset hw)

/-- An obedient port holds no word that a step refuses. -/
theorem step_answers_of_portObeys {s : State} (hs : portObeys s) : ∃ t, step s = .next t := by
  cases hp : s.port with
  | nil => exact ⟨s, step_idle hp⟩
  | cons e rest =>
    cases e with
    | rst => exact ⟨_, step_rst hp⟩
    | cmd w =>
      have hw : PortEvent.cmd w ∈ s.port := hp ▸ List.mem_cons_self
      obtain ⟨i, hd⟩ := decode_of_wordWellFormed (hs w hw)
      obtain ⟨t, ht⟩ := everyCommandCompletes i { s with port := rest }
      exact ⟨t, (step_cmd hp hd).trans ht⟩

/-- Settles O11: the step answers, and what it leaves on the port stood there before. -/
theorem obedientPortNeverStops : Obligations.ObedientPortNeverStops := by
  intro s hs
  obtain ⟨t, ht⟩ := step_answers_of_portObeys hs
  exact ⟨t, ht, portObeys_of_suffix hs (step_port_suffix ht)⟩

/-! ### Reset and launch -/

/-- Settles O8: RST writes the two units' registers and no other field. -/
theorem rstResetsBothUnits : Obligations.RstResetsBothUnits := fun _ => rfl

/-- Settles O13: power-on differs from the launch state in the two units alone, and RST writes both, as ENC.CLR and DEC.CLR do in turn. -/
theorem powerOnThenResetLaunches : Obligations.PowerOnThenResetLaunches :=
  ⟨step_rst rfl, (runInstrs_cons (encClrDiscards powerOn)).trans (runInstrs_cons (decClrDiscards _))⟩

/-- Settles O14: each of END and CLR writes its unit's reset state, as RST does, and of the three END alone appends. -/
theorem threeWaysToResetAgree : Obligations.ThreeWaysToResetAgree := by
  intro s
  constructor
  · exact ⟨_, _, execEncEnd_eq s, encClrDiscards s, rfl, rfl, applyRst_enc s, rfl, rfl, applyRst_encOut s⟩
  · exact ⟨_, _, _, execDecEnd_eq s, decClrDiscards s, rfl, rfl, applyRst_dec s, rfl,
      length_drawn_or_given (length_tail _ _ _ _ _) _ _, rfl, applyRst_decOut s⟩

end Sys2Proof.Proofs
end

