-- ==== Sys2Proof/Proofs/Other.lean ====
section
/-! PROOFS. The remaining statements, each from the facts of the files before: commands read back from their words (30_encoding.md R45, R50),
what a step takes from the port (log entry 1), and the invariants at launch (R16, R19, R58). -/

namespace Sys2Proof.Proofs

open Sys2Proof Sys2Proof.Machine Sys2Proof.Safety

/-! ### Commands and their words -/

/-- Settles O3: each field of a command's word reads back, for every command, so the premise that it is well formed is not needed. -/
theorem decodeEncodeAgree : Obligations.DecodeEncodeAgree := fun i _ => decode_encode i

/-- Settles O1: fourteen closed words, each decoded by evaluation. -/
theorem tableWordsDecode : Obligations.TableWordsDecode := by
  unfold Obligations.TableWordsDecode
  decide

/-! ### What a step takes from the port -/

/-- A number the table's decoder accepts spells its command on the port's 12 wires too (R41, R47; log entry 7). -/
theorem decode_of_decodeTableWord {nbits w : Nat} {i : Instr} (h : decodeTableWord nbits w = some i) :
    decode (BitVec.ofNat 12 w) = .ok i := by
  unfold decodeTableWord at h
  split_ifs at h
  cases hd : decode (BitVec.ofNat 12 w) with
  | ok j =>
    rw [hd] at h
    exact congrArg Except.ok (Option.some.inj h)
  | error r =>
    rw [hd] at h
    cases h

/-- Settles O7: taking the placed word off the port leaves the state it was placed in. -/
theorem placedWordRuns : Obligations.PlacedWordRuns := fun s _ w _ h =>
  step_cmd (placeWord_port w s) (decode_of_decodeTableWord h)

/-- Settles O9: the two kinds of port that hold no command at their head. -/
theorem stepWithoutCommand : Obligations.StepWithoutCommand := fun _ => ⟨fun _ => step_rst, step_idle⟩

/-! ### The invariants at launch -/

/-- Settles O50: both units launch in their reset states, and ENC_OUT is empty. -/
theorem resetMeetsInvariants : Obligations.ResetMeetsInvariants :=
  ⟨encCarryOk_reset, decBufferOk_reset, List.forall_mem_nil _⟩

end Sys2Proof.Proofs
end
